-- ==== Sys2Proof/Word.lean ====
section
/-! DEFINITION. The 32-bit word of the NORX engine (spec/00_scope.md R2, R9): the unit of every register,
of every datum the engine processes and of the data memory. -/

namespace Sys2Proof

/-- An unsigned 32-bit word; all arithmetic on it is modulo 2^32 (R9, R11). -/
abbrev Word := BitVec 32

end Sys2Proof
end

