-- ==== Sys2Proof/Syntax.lean ====
section
/-! DEFINITION. The commands of the engine (spec/30_encoding.md R111): one constructor per row of
spec/opcode_table.json, each with the operand fields of its format (R101-R106) at their width. -/

namespace Sys2Proof

/-- A command of the engine. Every operand field has exactly the width its format gives it (R101-R106), so a term is
never out of its field's range (R117). -/
inductive Instr where
  /-- NOP (R261), format N. -/
  | nop
  /-- CONFIG rounds, tagsel (R169), format C. -/
  | config (rounds tagsel : BitVec 8)
  /-- ENCRYPT (R258), format N. -/
  | encrypt
  /-- DECRYPT (R259), format N. -/
  | decrypt
  /-- ZEROIZE (R262), format N. -/
  | zeroize
  /-- PERM_H (R140), format N. -/
  | permH
  /-- PERM_ROTR r (R141), format R. -/
  | permRotr (ramt : BitVec 5)
  /-- PERM_G a, b, c, d (R142), format Q. -/
  | permG (qa qb qc qd : BitVec 4)
  /-- PERM_F n (R143), format P. -/
  | permF (nr : BitVec 6)
  /-- STATE_INIT (R171), format N. -/
  | stateInit
  /-- ABSORB_BLK g, dom (R210), format B. -/
  | absorbBlk (gcount : BitVec 4) (dsel : BitVec 2)
  /-- ENC_BLK g, dom (R211), format B. -/
  | encBlk (gcount : BitVec 4) (dsel : BitVec 2)
  /-- DEC_BLK g, dom (R212), format B. -/
  | decBlk (gcount : BitVec 4) (dsel : BitVec 2)
  /-- FINAL_TAG (R240), format N. -/
  | finalTag
  /-- TAG_COMPARE (R241), format N. -/
  | tagCompare
deriving DecidableEq, Repr

end Sys2Proof
end

