-- ==== Sys2Proof/Decode.lean ====
section
/-! DEFINITION. Command words (spec/30_encoding.md): the decoder of R112's first two checks, total on every word, and
the encoder of R117. A command is ONE 32-bit word (R100), latched whole from the write to CMD, so there are no bytes to
order and no length to find. -/

namespace Sys2Proof

/-- The six command formats (R101-R106). -/
inductive Format where
  | N | C | R | Q | P | B
deriving DecidableEq, Repr

/-- Why a word is no command. Both complete with ILLEGAL_COMMAND (R113, R114). -/
inductive DecodeError where
  /-- The opcode is not in the table of R111 (R113). -/
  | reservedOpcode
  /-- A reserved bit of the opcode's format is set (R114). -/
  | reservedBits
deriving DecidableEq, Repr

/-- The reserved-bit mask of each format (R111's second table). -/
def reservedMask (f : Format) : Word :=
  match f with
  | .N => 0xFFFFFF00
  | .C => 0xFF000000
  | .R => 0xFFFFE000
  | .Q => 0xFF000000
  | .P => 0xFFFFC000
  | .B => 0xFFFFC000

/-- The format of each command (R111). -/
def formatOf (i : Instr) : Format :=
  match i with
  | .nop => .N
  | .config _ _ => .C
  | .encrypt => .N
  | .decrypt => .N
  | .zeroize => .N
  | .permH => .N
  | .permRotr _ => .R
  | .permG _ _ _ _ => .Q
  | .permF _ => .P
  | .stateInit => .N
  | .absorbBlk _ _ => .B
  | .encBlk _ _ => .B
  | .decBlk _ _ => .B
  | .finalTag => .N
  | .tagCompare => .N

/-- The opcode field OPC, bits 7..0 in every format (R100). -/
def opcodeOf (w : Word) : BitVec 8 := w.extractLsb' 0 8

/-- The command that the opcode of `w` names, with its operand fields cut out (R101-R106, R111); the reserved bits are
not looked at. `none` for the reserved opcodes 0x05..0x0F and 0x1A..0xFF (R113). -/
def fieldsOf (w : Word) : Option Instr :=
  match (opcodeOf w).toNat with
  | 0x00 => some .nop
  | 0x01 => some (.config (w.extractLsb' 8 8) (w.extractLsb' 16 8))
  | 0x02 => some .encrypt
  | 0x03 => some .decrypt
  | 0x04 => some .zeroize
  | 0x10 => some .permH
  | 0x11 => some (.permRotr (w.extractLsb' 8 5))
  | 0x12 => some (.permG (w.extractLsb' 8 4) (w.extractLsb' 12 4) (w.extractLsb' 16 4) (w.extractLsb' 20 4))
  | 0x13 => some (.permF (w.extractLsb' 8 6))
  | 0x14 => some .stateInit
  | 0x15 => some (.absorbBlk (w.extractLsb' 8 4) (w.extractLsb' 12 2))
  | 0x16 => some (.encBlk (w.extractLsb' 8 4) (w.extractLsb' 12 2))
  | 0x17 => some (.decBlk (w.extractLsb' 8 4) (w.extractLsb' 12 2))
  | 0x18 => some .finalTag
  | 0x19 => some .tagCompare
  | _ => none

/-- R112's decode: the opcode first, then the reserved bits of its format. Total on every word. -/
def decode (w : Word) : Except DecodeError Instr :=
  match fieldsOf w with
  | none => .error .reservedOpcode
  | some i => if w &&& reservedMask (formatOf i) = 0 then .ok i else .error .reservedBits

/-- A field put into a word with its bit 0 at bit `lo`, zeros elsewhere (R107). -/
def fieldAt {n : Nat} (v : BitVec n) (lo : Nat) : Word := v.setWidth 32 <<< lo

/-- The word of a format B command (R106, R117). -/
def wordB (opc : Word) (gcount : BitVec 4) (dsel : BitVec 2) : Word := fieldAt dsel 12 ||| fieldAt gcount 8 ||| opc

/-- The encoder: the command's word, as R117 writes it from the format tables of R101-R106. -/
def encode (i : Instr) : Word :=
  match i with
  | .nop => 0x00000000
  | .config rounds tagsel => fieldAt tagsel 16 ||| fieldAt rounds 8 ||| 0x00000001
  | .encrypt => 0x00000002
  | .decrypt => 0x00000003
  | .zeroize => 0x00000004
  | .permH => 0x00000010
  | .permRotr ramt => fieldAt ramt 8 ||| 0x00000011
  | .permG qa qb qc qd => fieldAt qd 20 ||| fieldAt qc 16 ||| fieldAt qb 12 ||| fieldAt qa 8 ||| 0x00000012
  | .permF nr => fieldAt nr 8 ||| 0x00000013
  | .stateInit => 0x00000014
  | .absorbBlk gcount dsel => wordB 0x00000015 gcount dsel
  | .encBlk gcount dsel => wordB 0x00000016 gcount dsel
  | .decBlk gcount dsel => wordB 0x00000017 gcount dsel
  | .finalTag => 0x00000018
  | .tagCompare => 0x00000019

/-- The host's view of the decoder: the command read from a table row's bits. A command is one word, so its bits are the
low `nbits` bits of `w` with zeros above. -/
def decodeTableWord (nbits w : Nat) : Option Instr :=
  match decode (BitVec.ofNat 32 (w % 2 ^ nbits)) with
  | .ok i => some i
  | .error _ => none

end Sys2Proof
end

