-- ==== Sys2Proof/Config.lean ====
section
/-! DEFINITION. What the spec leaves to the platform or leaves unspecified: the open parameters of R7 and the
free values of R319. Every one is a constant with no body, so no proof can see what it is. -/

namespace Sys2Proof

/-- MEM_WORDS - 1, the highest word address of the data memory. MEM_WORDS is an OPEN parameter with
1 ≤ MEM_WORDS ≤ 2^32 (R7, R75, decision D25): every value of this word is one such size. -/
opaque Config.memTop : Word

/-- NORX_BASE, the byte address of the register window on the host's bus: an OPEN parameter (R71, decision D2).
Host accesses are modelled by their offset in the window, so no step reads it. -/
opaque Config.norxBase : Nat

/-- The orders in which a bus can carry the four bytes of a register value (log 13). -/
inductive ByteOrder where
  /-- Bits 7..0 on the lane of the lowest byte address. -/
  | little
  /-- Bits 31..24 on the lane of the lowest byte address. -/
  | big
deriving DecidableEq, Repr, Inhabited

/-- BUS_ENDIAN: an OPEN parameter of the platform (R7, decision D54). It decides how a register value maps onto the bus
byte lanes, and can change no value of a modelled access (R72). -/
opaque Config.busEndian : ByteOrder

/-- The value of the n-th unspecified register read (R319: while BUSY = 1 a read of a register other than STATUS
and ID returns an unspecified value). A free value: nothing constrains it. -/
opaque Config.freeRead : Nat → Word

end Sys2Proof
end

