-- ==== Sys2Proof/Machine/State.lean ====
section
/-! DEFINITION. The state of the engine as plain data (spec/10_state.md, spec/20_memory.md R75), the reasons a step can
stop, and the state right after reset (R44, R311). -/

namespace Sys2Proof.Machine

/-- The verification result STATUS.RESULT (R24, R234). The value 3 is never produced, so it is not represented. -/
inductive Result where
  /-- 0: the last command made no comparison, or it raised an error. -/
  | none
  /-- 1: the last command compared tags and they were equal. -/
  | pass
  /-- 2: the last command compared tags and they differed. -/
  | fail
deriving DecidableEq, Repr

/-- The error codes of STATUS.ERR (R281), in the order of their numbers. The codes 11..15 are never produced, so they
are not represented. -/
inductive ErrCode where
  | noError
  | uninitialized
  | invalidKeySize
  | invalidNonceSize
  | initializationFailed
  | illegalCommand
  | illegalOperand
  | rangeError
  | overlapError
  | locked
  | sequenceError
deriving DecidableEq, Repr

/-- The domain parameters held in CFG (R28): the round count R (bits 5..0) and the tag size A in bits (bits 24..16);
0 means not configured. -/
structure Params where
  r : BitVec 6
  a : BitVec 9
deriving DecidableEq, Repr

/-- The permutation state S[0..15] (R39). -/
abbrev PState := Vector Word 16

/-- A block of ten words, the rate's width (R190); also the shape of the tag windows (R36, R37). -/
abbrev Block := Vector Word 10

/-- The data memory M (R75): `top` is MEM_WORDS - 1, the highest word address of the platform's memory, and `cells` lists
the words that something has written since power-up, as (word address, word). A word that is not listed has no value
(R90). -/
structure Memory where
  top : Word
  cells : List (Nat × Word)
deriving DecidableEq, Repr

/-- A region (addr, len) of data memory, in unbounded integers (R76). -/
structure Region where
  addr : Nat
  len : Nat
deriving DecidableEq, Repr

/-- The registers of the window (R21), each array register with its index. -/
inductive Reg where
  | id | ctrl | status | cmd | cfg | keystat | outLen
  | key (i : Fin 4)
  | nonce (i : Fin 2)
  | hdrAddr | hdrLen | pldAddr | pldLen | trlAddr | trlLen | outAddr
  | opa | opb | res
  | tagOut (i : Fin 10)
  | tagIn (i : Fin 10)
  | blk (i : Fin 10)
  | s (i : Fin 16)
deriving DecidableEq, Repr

/-- One act of the outside world on the block: the host's accesses (R118), the reset input (R310), or the host leaving
the engine its turn. -/
inductive HostOp where
  /-- A host store of `size` bytes to byte offset `off` of the register window. -/
  | regWrite (off : BitVec 12) (size : Nat) (v : Word)
  /-- A host load of `size` bytes from byte offset `off` of the register window. -/
  | regRead (off : BitVec 12) (size : Nat)
  /-- `mw addr, v`: a host write of a data-memory word. -/
  | memWrite (addr : Word) (v : Word)
  /-- `mr addr`: a host read of a data-memory word. -/
  | memRead (addr : Word)
  /-- The platform asserts the reset input. -/
  | reset
  /-- The host waits: a busy engine completes its command, an idle one stays idle. -/
  | wait
deriving DecidableEq, Repr

/-- The whole state. Every register of R21's table, the hidden state of R42 and the data memory of R75; ID is constant
(R22), and CONFIGURED, LOCKED and irq are views (R24, R42), so they are computed and not stored. The last three fields
are the model's own. -/
structure State where
  /-- CTRL.IRQ_EN (R23). -/
  irqEn : Bool
  /-- CTRL.DBG_LOCK (R23): true is locked mode (R295). -/
  dbgLock : Bool
  /-- STATUS.BUSY (R24). -/
  busy : Bool
  /-- STATUS.DONE (R24). -/
  done : Bool
  /-- STATUS.RESULT (R24). -/
  result : Result
  /-- STATUS.ERR (R24). -/
  err : ErrCode
  /-- STATUS.R_DEFAULTED (R24). -/
  rDefaulted : Bool
  /-- STATUS.A_DEFAULTED (R24). -/
  aDefaulted : Bool
  /-- OP_OPEN, seen as STATUS.OP_OPEN (R42). -/
  opOpen : Bool
  /-- STATUS.HAZARD (R24). -/
  hazard : Bool
  /-- CFG (R28). -/
  cfg : Params
  /-- KEYSTAT.KEY_VALID (R29). -/
  keyValid : BitVec 4
  /-- KEYSTAT.NONCE_VALID (R29). -/
  nonceValid : BitVec 2
  /-- OUT_LEN (R30). -/
  outLen : Word
  /-- KEY0..KEY3 (R31). -/
  key : Vector Word 4
  /-- NONCE0..NONCE1 (R32). -/
  nonce : Vector Word 2
  /-- HDR_ADDR (R33). -/
  hdrAddr : Word
  /-- HDR_LEN (R33). -/
  hdrLen : Word
  /-- PLD_ADDR (R33). -/
  pldAddr : Word
  /-- PLD_LEN (R33). -/
  pldLen : Word
  /-- TRL_ADDR (R33). -/
  trlAddr : Word
  /-- TRL_LEN (R33). -/
  trlLen : Word
  /-- OUT_ADDR (R33). -/
  outAddr : Word
  /-- OPA (R34). -/
  opa : Word
  /-- OPB (R34). -/
  opb : Word
  /-- RES (R35). -/
  res : Word
  /-- TAG_OUT0..TAG_OUT9 (R36). -/
  tagOut : Block
  /-- TAG_IN0..TAG_IN9 (R37). -/
  tagIn : Block
  /-- BLK0..BLK9 (R38). -/
  blk : Block
  /-- S0..S15, the permutation state (R39). -/
  st : PState
  /-- PENDING, the command word latched at acceptance (R42). -/
  pending : Word
  /-- M, the data memory (R75). -/
  mem : Memory
  /-- The model's own: the value the last host read was given. -/
  rdata : Word
  /-- The model's own: how many free values have been used. -/
  freeIdx : Nat
  /-- The model's own: what the outside world will do next, in order; when it is empty the engine has its turn. -/
  hostOps : List HostOp
deriving DecidableEq, Repr

/-- Why the machine stops with a fault. -/
inductive Fault where
  /-- A data-memory word that nothing has written since power-up was read (R90). Raised by ENCRYPT and DECRYPT, and by a
  host read (log 3). Safe: the model stops where the spec promises no value. -/
  | unwrittenWord (addr : Nat)
  /-- The word address is not below MEM_WORDS, so the word does not exist (R75). Raised by the host's data-memory accesses
  (log 10). Safe: the model stops. -/
  | noSuchWord (addr : Nat)
  /-- The host broke R321: it wrote a region of a busy ENCRYPT or DECRYPT, or read its output region. Raised by the host's
  data-memory accesses. Safe: the model stops, as R321 asks. -/
  | inFlightAccess (addr : Nat)
deriving DecidableEq, Repr

/-- Why the machine gives no meaning. -/
inductive Refusal where
  /-- An instruction without a meaning in this model. Raised by an arm of exec that has none; no arm is so left. Safe. -/
  | notModelled (mnemonic : String)
  /-- A narrow or misaligned access to the register window, which a model refuses (R74). Raised by the host's accesses
  only, never by a command. Safe. -/
  | badRegisterAccess
deriving DecidableEq, Repr

/-- What a command or a step answers. -/
abbrev Answer := Host.Outcome State Fault Refusal

/-- The machine right after reset (R44, R311): every register 0 but ID, nothing open, unlocked, not busy. PENDING is
unspecified there and holds 0 (log 2); the data memory lists nothing (R90) and has the platform's size (log 1). -/
def State.reset : State :=
  { irqEn := false, dbgLock := false
    busy := false, done := false, result := .none, err := .noError
    rDefaulted := false, aDefaulted := false, opOpen := false, hazard := false
    cfg := ⟨0, 0⟩, keyValid := 0, nonceValid := 0, outLen := 0
    key := #v[0, 0, 0, 0], nonce := #v[0, 0]
    hdrAddr := 0, hdrLen := 0, pldAddr := 0, pldLen := 0, trlAddr := 0, trlLen := 0, outAddr := 0
    opa := 0, opb := 0, res := 0
    tagOut := Vector.replicate 10 0, tagIn := Vector.replicate 10 0, blk := Vector.replicate 10 0
    st := Vector.replicate 16 0
    pending := 0
    mem := ⟨Config.memTop, []⟩
    rdata := 0, freeIdx := 0, hostOps := [] }

end Sys2Proof.Machine
end

