-- ==== Sys2Proof/Machine/Ops.lean ====
section
/-! DEFINITION. The named operations on the data memory (spec/20_memory.md), the command protocol of spec/10_state.md
R26 and R27, and the raising of an error, which stands on this hardware for taking an exception (R10, R282, R290).
Nothing returns from one (R292): the host acknowledges DONE or issues the next command. -/

namespace Sys2Proof.Machine

/-! ## The data memory -/

/-- MEM_WORDS, in 1..2^32 (R7). -/
def Memory.words (m : Memory) : Nat := m.top.toNat + 1

/-- The word listed at address `a`, if any. -/
def lookupCell (a : Nat) : List (Nat × Word) → Option Word
  | [] => none
  | (b, w) :: cs => if a = b then some w else lookupCell a cs

/-- The list with `v` at address `a`, addresses kept strictly rising. -/
def putCell (a : Nat) (v : Word) : List (Nat × Word) → List (Nat × Word)
  | [] => [(a, v)]
  | (b, w) :: cs => if a < b then (a, v) :: (b, w) :: cs else if a = b then (a, v) :: cs else (b, w) :: putCell a v cs

/-- The model's read of one word of M. An unlisted word has no value (R90). -/
def Memory.get (m : Memory) (a : Nat) : Option Word := lookupCell a m.cells

/-- The model's write of one word of M; its callers check that the word exists. -/
def Memory.put (m : Memory) (a : Nat) (v : Word) : Memory := { m with cells := putCell a v m.cells }

/-- The canonical form: listed addresses strictly rising, each below MEM_WORDS. An unlisted word has no value, so no
entry can repeat what an unlisted address reads as. -/
abbrev Memory.wf (m : Memory) : Prop :=
  m.cells.Pairwise (fun p q => p.1 < q.1) ∧ ∀ p ∈ m.cells, p.1 < m.words

/-- The address is one of the region's words; an empty region has none (R76). -/
def Region.holds (g : Region) (a : Nat) : Bool := g.addr ≤ a && a < g.addr + g.len

/-- R76: a non-empty region is in range when addr + len ≤ MEM_WORDS, in unbounded integers; an empty one is not
checked. -/
def Region.inRange (words : Nat) (g : Region) : Bool := g.len = 0 || g.addr + g.len ≤ words

/-- R76: two non-empty regions overlap when each starts before the other ends. -/
def Region.overlaps (g h : Region) : Bool :=
  g.len ≠ 0 && h.len ≠ 0 && g.addr < h.addr + h.len && h.addr < g.addr + g.len

/-- MemRead(addr, n) (R10): the n words from `a` up, or the first address that holds no value (R90). -/
def Memory.readWords (m : Memory) (a : Nat) : Nat → Except Nat (List Word)
  | 0 => .ok []
  | n + 1 =>
    match m.get a with
    | none => .error a
    | some v =>
      match m.readWords (a + 1) n with
      | .error b => .error b
      | .ok vs => .ok (v :: vs)

/-- MemRead of a region (R10, R76). -/
def Memory.readRegion (m : Memory) (g : Region) : Except Nat (List Word) := m.readWords g.addr g.len

/-- MemWrite(addr, n, v) (R10): the words of the sequence from `a` up. -/
def Memory.writeWords (m : Memory) (a : Nat) : List Word → Memory
  | [] => m
  | v :: vs => (m.put a v).writeWords (a + 1) vs

/-- The words of a region become unwritten (R312). -/
def Memory.forget (m : Memory) (g : Region) : Memory :=
  { m with cells := m.cells.filter fun p => !g.holds p.1 }

/-! ## Acceptance, completion and errors -/

/-- R26: the acceptance of a command word. -/
def State.accept (s : State) (w : Word) : State :=
  { s with pending := w, busy := true, done := false, err := .noError, result := .none }

/-- R27: the completion writes. -/
def State.finish (s : State) : State := { s with busy := false, done := true }

/-- `raise <Error>` (R10, R282): the command ends with STATUS.ERR set and changes nothing else. -/
def State.raise (s : State) (e : ErrCode) : State := { s with err := e }

/-- The error of the first check that applies (R283: the checks are listed in the order of their priority). -/
def firstError : List (Bool × ErrCode) → Option ErrCode
  | [] => none
  | (applies, e) :: cs => if applies then some e else firstError cs

/-- A command's checks, then its effect: every check happens before any effect (R282). -/
def guarded (checks : List (Bool × ErrCode)) (s : State) (effect : Answer) : Answer :=
  match firstError checks with
  | some e => .next (s.raise e)
  | none => effect

end Sys2Proof.Machine
end

