-- ==== Sys2Proof/Machine/Operands.lean ====
section
/-! DEFINITION. Operand assembly and the conditions that commands check (spec/30_encoding.md R107-R110,
spec/44_operations.md R252, R255-R257). -/

namespace Sys2Proof.Machine

/-- R112: the check of an engine-level command, opcodes 0x10..0x19. -/
def lockCheck (s : State) : Bool × ErrCode := (s.dbgLock, .locked)

/-- R165: the block is not configured. -/
def State.notConfigured (s : State) : Bool := s.cfg.r = 0#6 || s.cfg.a = 0#9

/-- The check of every command that needs the configuration (R165, R281). -/
def configCheck (s : State) : Bool × ErrCode := (s.notConfigured, .uninitialized)

/-- R252: not all four key words have been written. -/
def keyCheck (s : State) : Bool × ErrCode := (s.keyValid ≠ 0b1111#4, .invalidKeySize)

/-- R252: not both nonce words have been written. -/
def nonceCheck (s : State) : Bool × ErrCode := (s.nonceValid ≠ 0b11#2, .invalidNonceSize)

/-- R115: GCOUNT above 10 is an illegal operand. -/
def countCheck (gcount : BitVec 4) : Bool × ErrCode := (10 < gcount.toNat, .illegalOperand)

/-- R108: PERM_F's round count, CFG.R when NR = 0. -/
def roundsOf (nr : BitVec 6) (s : State) : Nat := if nr = 0#6 then s.cfg.r.toNat else nr.toNat

/-- R109: the domain constant, 1 << DSEL. -/
def domOf (dsel : BitVec 2) : Word := 1 <<< dsel.toNat

/-- CFG.R as a round count. -/
def Params.rounds (c : Params) : Nat := c.r.toNat

/-- R231: the number of tag words, A/32. -/
def Params.tagWords (c : Params) : Nat := c.a.toNat / 32

/-- RH (R255). -/
def State.headerRegion (s : State) : Region := ⟨s.hdrAddr.toNat, s.hdrLen.toNat⟩

/-- RP (R255). -/
def State.payloadRegion (s : State) : Region := ⟨s.pldAddr.toNat, s.pldLen.toNat⟩

/-- RT (R255). -/
def State.trailerRegion (s : State) : Region := ⟨s.trlAddr.toNat, s.trlLen.toNat⟩

/-- RO (R255): the output region has the payload's length. -/
def State.outputRegion (s : State) : Region := ⟨s.outAddr.toNat, s.pldLen.toNat⟩

/-- R256: some non-empty region runs past MEM_WORDS. -/
def rangeCheck (s : State) : Bool × ErrCode :=
  (!(s.headerRegion.inRange s.mem.words && s.payloadRegion.inRange s.mem.words &&
      s.trailerRegion.inRange s.mem.words && s.outputRegion.inRange s.mem.words), .rangeError)

/-- R257: the output region overlaps the header or the trailer, or overlaps the payload without starting with it. -/
def overlapCheck (s : State) : Bool × ErrCode :=
  (s.outputRegion.overlaps s.headerRegion || s.outputRegion.overlaps s.trailerRegion ||
      (s.outputRegion.overlaps s.payloadRegion && s.outAddr ≠ s.pldAddr), .overlapError)

/-- The checks of ENCRYPT and DECRYPT, in order (R258, R259, R283). -/
def wholeChecks (s : State) : List (Bool × ErrCode) :=
  [keyCheck s, nonceCheck s, configCheck s, rangeCheck s, overlapCheck s]

/-- The ten words of a window: the first `n` from the list, 0 beyond (R211, R212, R240, R258). -/
def windowOf (n : Nat) (ws : List Word) : Block :=
  Vector.ofFn fun i : Fin 10 => if i.val < n then ws.getD i.val 0 else 0

end Sys2Proof.Machine
end

