-- ==== Sys2Proof/Machine/Flags.lean ====
section
/-! DEFINITION. The flags and status words as the host reads them (spec/10_state.md R22-R24, R28, R29), and the
interrupt line (spec/60_exceptions.md R288). -/

namespace Sys2Proof.Machine

/-- A flag as a one-bit field. -/
def bit (b : Bool) : BitVec 1 := BitVec.ofBool b

/-- ID (R22). -/
def idWord : Word := 0x4E4F5258

/-- The number of a verification result (R234). -/
def resultBits (r : Result) : BitVec 2 :=
  match r with
  | .none => 0
  | .pass => 1
  | .fail => 2

/-- The number of an error code (R281). -/
def errBits (e : ErrCode) : BitVec 4 :=
  match e with
  | .noError => 0
  | .uninitialized => 1
  | .invalidKeySize => 2
  | .invalidNonceSize => 3
  | .initializationFailed => 4
  | .illegalCommand => 5
  | .illegalOperand => 6
  | .rangeError => 7
  | .overlapError => 8
  | .locked => 9
  | .sequenceError => 10

/-- STATUS.CONFIGURED, a view of CFG (R24). -/
def State.configured (s : State) : Bool := s.cfg.r ≠ 0#6 && s.cfg.a ≠ 0#9

/-- STATUS (R24), field by field. -/
def statusWord (s : State) : Word :=
  fieldAt (bit s.busy) 0 ||| fieldAt (bit s.done) 1 ||| fieldAt (resultBits s.result) 2 ||| fieldAt (errBits s.err) 4 |||
    fieldAt (bit s.rDefaulted) 8 ||| fieldAt (bit s.aDefaulted) 9 ||| fieldAt (bit s.configured) 10 |||
    fieldAt (bit s.opOpen) 11 ||| fieldAt (bit s.hazard) 12 ||| fieldAt (bit s.dbgLock) 13

/-- CTRL (R23). -/
def ctrlWord (s : State) : Word := fieldAt (bit s.irqEn) 0 ||| fieldAt (bit s.dbgLock) 1

/-- CFG (R28). -/
def cfgWord (c : Params) : Word := fieldAt c.r 0 ||| fieldAt c.a 16

/-- KEYSTAT (R29). -/
def keystatWord (s : State) : Word := fieldAt s.keyValid 0 ||| fieldAt s.nonceValid 4

/-- The interrupt output, a level (R288). -/
def State.irq (s : State) : Bool := s.irqEn && s.done

end Sys2Proof.Machine
end

