-- ==== Sys2Proof/Machine/Permutation.lean ====
section
/-! DEFINITION. The permutation core (spec/40_permutation.md): H, ROTR, G, F, and the commands PERM_H, PERM_ROTR,
PERM_G and PERM_F. -/

namespace Sys2Proof.Machine

/-- H (R130). -/
def mixH (a b : Word) : Word := (a ^^^ b) ^^^ ((a &&& b) <<< 1)

/-- ROTR (R131), for 0 < r < 32. -/
def rotr (a : Word) (r : Nat) : Word := (a >>> r) ||| (a <<< (32 - r))

/-- G (R132): each line reads what the lines before it wrote, also where indices are equal. -/
def quarterG (S : PState) (a b c d : Fin 16) : PState :=
  let S := S.set a (mixH S[a] S[b])
  let S := S.set d (rotr (S[a] ^^^ S[d]) 8)
  let S := S.set c (mixH S[c] S[d])
  let S := S.set b (rotr (S[b] ^^^ S[c]) 11)
  let S := S.set a (mixH S[a] S[b])
  let S := S.set d (rotr (S[a] ^^^ S[d]) 16)
  let S := S.set c (mixH S[c] S[d])
  S.set b (rotr (S[b] ^^^ S[c]) 31)

/-- G on an index group. -/
def groupG (S : PState) (g : Fin 16 × Fin 16 × Fin 16 × Fin 16) : PState := quarterG S g.1 g.2.1 g.2.2.1 g.2.2.2

/-- COL0..COL3 (R133). -/
def columns : List (Fin 16 × Fin 16 × Fin 16 × Fin 16) := [(0, 4, 8, 12), (1, 5, 9, 13), (2, 6, 10, 14), (3, 7, 11, 15)]

/-- DIAG0..DIAG3 (R133). -/
def diagonals : List (Fin 16 × Fin 16 × Fin 16 × Fin 16) := [(0, 5, 10, 15), (1, 6, 11, 12), (2, 7, 8, 13), (3, 4, 9, 14)]

/-- One round of F (R134): the columns, then the diagonals. -/
def roundF (S : PState) : PState := diagonals.foldl groupG (columns.foldl groupG S)

/-- F(rounds, S) (R134). -/
def permuteF : Nat → PState → PState
  | 0, S => S
  | n + 1, S => permuteF n (roundF S)

/-- PERM_H (R140): RES <- H(OPA, OPB). -/
def execPermH (s : State) : Answer :=
  guarded [lockCheck s] s (.next { s with res := mixH s.opa s.opb })

/-- PERM_ROTR (R141): RES <- ROTR(OPA, r); r = 0 is an illegal operand. -/
def execPermRotr (ramt : BitVec 5) (s : State) : Answer :=
  guarded [lockCheck s, (ramt = 0#5, .illegalOperand)] s (.next { s with res := rotr s.opa ramt.toNat })

/-- PERM_G (R142): one quarter-round on the state; every index combination is legal. -/
def execPermG (qa qb qc qd : BitVec 4) (s : State) : Answer :=
  guarded [lockCheck s] s (.next { s with st := quarterG s.st qa.toFin qb.toFin qc.toFin qd.toFin })

/-- PERM_F (R143): NR rounds, or CFG.R rounds when NR = 0, which then needs the configuration. -/
def execPermF (nr : BitVec 6) (s : State) : Answer :=
  guarded [lockCheck s, (nr = 0#6 && s.notConfigured, .uninitialized)] s
    (.next { s with st := permuteF (roundsOf nr s) s.st })

end Sys2Proof.Machine
end

