-- ==== Sys2Proof/Machine/Init.lean ====
section
/-! DEFINITION. The domain parameters and the state initializer (spec/41_init.md sections 1 and 3), and STATE_INIT. -/

namespace Sys2Proof.Machine

/-- The initialization constants U0..U9 (R161; the spec marks the values as from general knowledge and confirmed by
its known-answer vector). -/
def constU : Vector Word 10 :=
  #v[0x243F6A88, 0x85A308D3, 0x13198A2E, 0x03707344, 0x254F537A,
     0x38531D48, 0x839C6E83, 0xF97A3AE5, 0x8C91D88C, 0x11EAFB59]

/-- The parameter word P(R, A) (R163), with W = 32 and D = 1 (R160). -/
def paramWord (c : Params) : Word :=
  (c.r.setWidth 32 <<< 26) ^^^ ((1 : Word) <<< 18) ^^^ ((32 : Word) <<< 10) ^^^ c.a.setWidth 32

/-- The state before the first permutation call of Init, with P(R, A) in word 14 (R170). -/
def loadState (K : Vector Word 4) (N : Vector Word 2) (c : Params) : PState :=
  #v[constU[0], N[0], N[1], constU[1],
     K[0], K[1], K[2], K[3],
     constU[2], constU[3], constU[4], constU[5],
     constU[6], constU[7], constU[8] ^^^ paramWord c, constU[9]]

/-- S[15] <- S[15] ⊕ d (R170, R193). -/
def xorLast (S : PState) (d : Word) : PState := S.set 15 (S[15] ^^^ d)

/-- Init (R170): load, permute, XOR 1 into S[15], permute. -/
def initState (K : Vector Word 4) (N : Vector Word 2) (c : Params) : PState :=
  permuteF c.rounds (xorLast (permuteF c.rounds (loadState K N c)) 1)

/-- STATE_INIT (R171): S <- Init(KEY, NONCE, CFG.R, CFG.A), and an operation opens. -/
def execStateInit (s : State) : Answer :=
  guarded [lockCheck s, keyCheck s, nonceCheck s, configCheck s] s
    (.next { s with st := initState s.key s.nonce s.cfg, opOpen := true })

end Sys2Proof.Machine
end

