-- ==== Sys2Proof/Machine/Phases.lean ====
section
/-! DEFINITION. Padding and the phase processor (spec/42_phases.md), and ABSORB_BLK, ENC_BLK and DEC_BLK. -/

namespace Sys2Proof.Machine

/-- The padded length L' (R191). -/
def padLength (L : Nat) : Nat := L + (10 - L % 10)

/-- Pad (R191): the words of x, zeros, 1 ORed in at index L and 0x80000000 at the last index. -/
def pad (x : List Word) : List Word :=
  (List.range (padLength x.length)).map fun i =>
    (if i < x.length then x.getD i 0 else 0) |||
      (if i = x.length then 0x00000001 else 0) ||| (if i = padLength x.length - 1 then 0x80000000 else 0)

/-- PadWord(g, j) (R192); a full block has no pad words. -/
def padWord (g j : Nat) : Word :=
  if 10 ≤ g then 0 else (if j = g then 0x00000001 else 0) ||| (if j = 9 then 0x80000000 else 0)

/-- Words 10k..10k+9 of a sequence (R192). -/
def blockAt (y : List Word) (k : Nat) : Block := Vector.ofFn fun j : Fin 10 => y.getD (10 * k + j.val) 0

/-- The block of a block command (R210): the first g words from BLK, then pad words. -/
def operandBlock (blk : Block) (g : Nat) : Block :=
  Vector.ofFn fun j : Fin 10 => if j.val < g then blk[j] else padWord g j.val

/-- S[0..9] <- S[0..9] ⊕ y (R190, R198). -/
def xorRate (S : PState) (y : Block) : PState :=
  Vector.ofFn fun i : Fin 16 => if h : i.val < 10 then S[i] ^^^ y[i.val] else S[i]

/-- S[j] <- y[j] for the first g words, S[j] <- S[j] ⊕ y[j] for the rest of the rate (R200). -/
def overwriteRate (S : PState) (y : Block) (g : Nat) : PState :=
  Vector.ofFn fun i : Fin 16 => if h : i.val < 10 then (if i.val < g then y[i.val] else S[i] ^^^ y[i.val]) else S[i]

/-- The rate S[0..9] as ten words (R190). -/
def rateOf (S : PState) : Block := Vector.ofFn fun j : Fin 10 => S[j.val]

/-- The end of every block step: the domain constant, then F(R) (R198-R200). -/
def closeBlock (S : PState) (dom : Word) (R : Nat) : PState := permuteF R (xorLast S dom)

/-- AbsorbBlock (R198). -/
def absorbBlock (S : PState) (y : Block) (dom : Word) (R : Nat) : PState := closeBlock (xorRate S y) dom R

/-- EncBlock (R199): the state after, and the ten post-XOR words. -/
def encBlock (S : PState) (y : Block) (dom : Word) (R : Nat) : PState × List Word :=
  (closeBlock (xorRate S y) dom R, (rateOf (xorRate S y)).toList)

/-- DecBlock (R200): the state after, and the g recovered words, which are S[j] ⊕ y[j] of the state before. -/
def decBlock (S : PState) (y : Block) (g : Nat) (dom : Word) (R : Nat) : PState × List Word :=
  (closeBlock (overwriteRate S y g) dom R, (rateOf (xorRate S y)).toList.take g)

/-- The number of blocks of Pad(x) (R192, R201): |y|/10. -/
def blockCount (x : List Word) : Nat := (pad x).length / 10

/-- AbsorbPhase after its first n blocks (R201). -/
def absorbBlocks (x : List Word) (dom : Word) (R : Nat) (S : PState) : Nat → PState
  | 0 => S
  | n + 1 => absorbBlock (absorbBlocks x dom R S n) (blockAt (pad x) n) dom R

/-- EncPhase after its first n blocks: the state and the output so far (R202). -/
def encBlocks (p : List Word) (dom : Word) (R : Nat) (S : PState) : Nat → PState × List Word
  | 0 => (S, [])
  | n + 1 =>
    let before := encBlocks p dom R S n
    let b := encBlock before.1 (blockAt (pad p) n) dom R
    (b.1, before.2 ++ b.2)

/-- DecPhase after its first n blocks (R203); block k has g = min(10, L - 10k) genuine words. -/
def decBlocks (c : List Word) (dom : Word) (R : Nat) (S : PState) : Nat → PState × List Word
  | 0 => (S, [])
  | n + 1 =>
    let before := decBlocks c dom R S n
    let b := decBlock before.1 (blockAt (pad c) n) (min 10 (c.length - 10 * n)) dom R
    (b.1, before.2 ++ b.2)

/-- AbsorbPhase (R201); an empty sequence is skipped (R196). -/
def absorbPhase (S : PState) (x : List Word) (dom : Word) (R : Nat) : PState :=
  if x = [] then S else absorbBlocks x dom R S (blockCount x)

/-- EncPhase (R202): the state after, and the ciphertext with the padding stripped. -/
def encPhase (S : PState) (p : List Word) (dom : Word) (R : Nat) : PState × List Word :=
  if p = [] then (S, [])
  else ((encBlocks p dom R S (blockCount p)).1, (encBlocks p dom R S (blockCount p)).2.take p.length)

/-- DecPhase (R203): the state after, and the recovered words. -/
def decPhase (S : PState) (c : List Word) (dom : Word) (R : Nat) : PState × List Word :=
  if c = [] then (S, []) else decBlocks c dom R S (blockCount c)

/-- DomH(p, t) (R194). -/
def domH (p t : List Word) : Word := if p ≠ [] then 0x02 else if t ≠ [] then 0x04 else 0x08

/-- DomP(t) (R194). -/
def domP (t : List Word) : Word := if t ≠ [] then 0x04 else 0x08

/-- DomT (R194). -/
def domT : Word := 0x08

/-- The checks of the block commands (R210). -/
def blockChecks (gcount : BitVec 4) (s : State) : List (Bool × ErrCode) := [lockCheck s, countCheck gcount, configCheck s]

/-- ABSORB_BLK (R210): absorb one header or trailer block from BLK. -/
def execAbsorbBlk (gcount : BitVec 4) (dsel : BitVec 2) (s : State) : Answer :=
  guarded (blockChecks gcount s) s
    (.next { s with st := absorbBlock s.st (operandBlock s.blk gcount.toNat) (domOf dsel) s.cfg.rounds })

/-- ENC_BLK (R211): encrypt one payload block from BLK and return its ciphertext in BLK. -/
def execEncBlk (gcount : BitVec 4) (dsel : BitVec 2) (s : State) : Answer :=
  let b := encBlock s.st (operandBlock s.blk gcount.toNat) (domOf dsel) s.cfg.rounds
  guarded (blockChecks gcount s) s (.next { s with st := b.1, blk := windowOf gcount.toNat b.2 })

/-- DEC_BLK (R212): decrypt one payload block from BLK and return its plaintext in BLK. -/
def execDecBlk (gcount : BitVec 4) (dsel : BitVec 2) (s : State) : Answer :=
  let b := decBlock s.st (operandBlock s.blk gcount.toNat) gcount.toNat (domOf dsel) s.cfg.rounds
  guarded (blockChecks gcount s) s (.next { s with st := b.1, blk := windowOf gcount.toNat b.2 })

end Sys2Proof.Machine
end

