-- ==== Sys2Proof/Machine/Tag.lean ====
section
/-! DEFINITION. The finalizer and the tag verifier (spec/43_tag.md), and FINAL_TAG and TAG_COMPARE. -/

namespace Sys2Proof.Machine

/-- Finalize (R230): one more F(R). -/
def finalize (S : PState) (R : Nat) : PState := permuteF R S

/-- Tag(S, A) (R231): the first A/32 words of the state. -/
def tagOf (S : PState) (c : Params) : List Word := S.toList.take c.tagWords

/-- The accumulator of CtEq over the first n word pairs (R232): every pair is visited. -/
def ctAcc (t u : List Word) : Nat → Word
  | 0 => 0
  | n + 1 => ctAcc t u n ||| (t.getD n 0 ^^^ u.getD n 0)

/-- CtEq(t, u, n) (R232): one branch, after the loop. -/
def ctEq (t u : List Word) (n : Nat) : Bool := ctAcc t u n = 0

/-- The result that a comparison reports (R234). -/
def verdictOf (equal : Bool) : Result := if equal then .pass else .fail

/-- FINAL_TAG (R240): finalize the state, expose the tag in TAG_OUT, close the operation. -/
def execFinalTag (s : State) : Answer :=
  let S := finalize s.st s.cfg.rounds
  guarded [lockCheck s, configCheck s] s
    (.next { s with st := S, tagOut := windowOf s.cfg.tagWords (tagOf S s.cfg), opOpen := false })

/-- TAG_COMPARE (R241): compare the first A/32 words of TAG_OUT and TAG_IN. -/
def execTagCompare (s : State) : Answer :=
  guarded [lockCheck s, configCheck s] s
    (.next { s with result := verdictOf (ctEq s.tagOut.toList s.tagIn.toList s.cfg.tagWords) })

end Sys2Proof.Machine
end

