-- ==== Sys2Proof/Machine/Whole.lean ====
section
/-! DEFINITION. The whole operations (spec/44_operations.md): EncryptFn, DecryptFn, ENCRYPT and DECRYPT. -/

namespace Sys2Proof.Machine

/-- EncryptFn (R250): the ciphertext and the tag. -/
def encryptFn (K : Vector Word 4) (N : Vector Word 2) (h p t : List Word) (c : Params) : List Word × List Word :=
  let afterHeader := absorbPhase (initState K N c) h (domH p t) c.rounds
  let payload := encPhase afterHeader p (domP t) c.rounds
  let final := finalize (absorbPhase payload.1 t domT c.rounds) c.rounds
  (payload.2, tagOf final c)

/-- DecryptFn (R251) with the supplied tag u: the plaintext and true, or nothing and false. -/
def decryptFn (K : Vector Word 4) (N : Vector Word 2) (h ct t u : List Word) (c : Params) : List Word × Bool :=
  let afterHeader := absorbPhase (initState K N c) h (domH ct t) c.rounds
  let payload := decPhase afterHeader ct (domP t) c.rounds
  let final := finalize (absorbPhase payload.1 t domT c.rounds) c.rounds
  if ctEq (tagOf final c) u c.tagWords then (payload.2, true) else ([], false)

/-- The snapshot of the three input regions (R254, R85), or the first word that holds no value (R90). -/
def readInputs (s : State) : Except Nat (List Word × List Word × List Word) :=
  match s.mem.readRegion s.headerRegion with
  | .error a => .error a
  | .ok h =>
    match s.mem.readRegion s.payloadRegion with
    | .error a => .error a
    | .ok p =>
      match s.mem.readRegion s.trailerRegion with
      | .error a => .error a
      | .ok t => .ok (h, p, t)

/-- A whole operation on its inputs: reading an unwritten word is a fault (R90). -/
def onInputs (s : State) (effect : List Word → List Word → List Word → State) : Answer :=
  match readInputs s with
  | .error a => .fault (.unwrittenWord a)
  | .ok (h, p, t) => .next (effect h p t)

/-- What both whole operations leave behind: a zero state and no open operation (R258, R259). -/
def State.closeWhole (s : State) : State := { s with st := Vector.replicate 16 0, opOpen := false }

/-- ENCRYPT's effect on its inputs (R258). -/
def encryptEffect (s : State) (h p t : List Word) : State :=
  let r := encryptFn s.key s.nonce h p t s.cfg
  { s.closeWhole with
    mem := s.mem.writeWords s.outAddr.toNat r.1
    tagOut := windowOf s.cfg.tagWords r.2
    outLen := s.pldLen }

/-- The tag supplied in TAG_IN: its first A/32 words (R259). -/
def suppliedTag (s : State) : List Word := s.tagIn.toList.take s.cfg.tagWords

/-- DECRYPT's effect on its inputs (R259): the plaintext is written only if the tag verifies. -/
def decryptEffect (s : State) (h ct t : List Word) : State :=
  let r := decryptFn s.key s.nonce h ct t (suppliedTag s) s.cfg
  { s.closeWhole with
    mem := if r.2 then s.mem.writeWords s.outAddr.toNat r.1 else s.mem
    tagOut := Vector.replicate 10 0
    outLen := if r.2 then s.pldLen else 0
    result := verdictOf r.2 }

/-- ENCRYPT (R258). -/
def execEncrypt (s : State) : Answer := guarded (wholeChecks s) s (onInputs s (encryptEffect s))

/-- DECRYPT (R259). -/
def execDecrypt (s : State) : Answer := guarded (wholeChecks s) s (onInputs s (decryptEffect s))

end Sys2Proof.Machine
end

