-- ==== Sys2Proof/Machine/Bus.lean ====
section
/-! DEFINITION. What the outside world does to the block: the register window (spec/10_state.md R21-R40,
spec/20_memory.md R70-R79), the host's accesses to data memory, and the reset input (spec/70_reset_and_hazards.md). -/

namespace Sys2Proof.Machine

/-! ## The register map -/

/-- The byte offset of each register (R21). -/
def Reg.offset (r : Reg) : Nat :=
  match r with
  | .id => 0x000
  | .ctrl => 0x004
  | .status => 0x008
  | .cmd => 0x00C
  | .cfg => 0x010
  | .keystat => 0x014
  | .outLen => 0x018
  | .key i => 0x020 + 4 * i.val
  | .nonce i => 0x030 + 4 * i.val
  | .hdrAddr => 0x040
  | .hdrLen => 0x044
  | .pldAddr => 0x048
  | .pldLen => 0x04C
  | .trlAddr => 0x050
  | .trlLen => 0x054
  | .outAddr => 0x058
  | .opa => 0x060
  | .opb => 0x064
  | .res => 0x068
  | .tagOut i => 0x080 + 4 * i.val
  | .tagIn i => 0x0C0 + 4 * i.val
  | .blk i => 0x100 + 4 * i.val
  | .s i => 0x140 + 4 * i.val

/-- The host's bus address of a byte offset: the window stands at NORX_BASE (R71). -/
def busAddress (off : BitVec 12) : Nat := Config.norxBase + off.toNat

/-- A register value on the byte lanes of a bus, the lane of the lowest byte address first (R72). -/
def busLanes (e : ByteOrder) (v : Word) : Vector (BitVec 8) 4 :=
  match e with
  | .little => #v[v.extractLsb' 0 8, v.extractLsb' 8 8, v.extractLsb' 16 8, v.extractLsb' 24 8]
  | .big => #v[v.extractLsb' 24 8, v.extractLsb' 16 8, v.extractLsb' 8 8, v.extractLsb' 0 8]

/-- The register value that the byte lanes carry (R72). -/
def busValue (e : ByteOrder) (l : Vector (BitVec 8) 4) : Word :=
  match e with
  | .little => l[3] ++ l[2] ++ l[1] ++ l[0]
  | .big => l[0] ++ l[1] ++ l[2] ++ l[3]

/-- A whole register value carried over the host's bus, onto the lanes and off them, in the platform's byte order. It is
the value itself (R72, `busTransfer_eq`), so the accesses below take and give whole values. -/
def busTransfer (v : Word) : Word := busValue Config.busEndian (busLanes Config.busEndian v)

/-- The registers that are not one of an array (R21). -/
def singleRegs : List Reg :=
  [.id, .ctrl, .status, .cmd, .cfg, .keystat, .outLen, .hdrAddr, .hdrLen, .pldAddr, .pldLen, .trlAddr, .trlLen,
   .outAddr, .opa, .opb, .res]

/-- Every register of the window, in the order of R21's table. -/
def allRegs : List Reg :=
  singleRegs ++ (List.finRange 4).map .key ++ (List.finRange 2).map .nonce ++ (List.finRange 10).map .tagOut ++
    (List.finRange 10).map .tagIn ++ (List.finRange 10).map .blk ++ (List.finRange 16).map .s

/-- The register at a byte offset; `none` at a reserved offset (R21). -/
def regAt (off : Nat) : Option Reg := allRegs.find? fun r => r.offset = off

/-- The debug windows, marked (L) in R21's table (R40). -/
def Reg.isDebug (r : Reg) : Bool :=
  match r with
  | .opa | .opb | .res | .blk _ | .s _ => true
  | .id | .ctrl | .status | .cmd | .cfg | .keystat | .outLen | .key _ | .nonce _ => false
  | .hdrAddr | .hdrLen | .pldAddr | .pldLen | .trlAddr | .trlLen | .outAddr | .tagOut _ | .tagIn _ => false

/-- What a register holds for a read in unlocked mode; the write-only CMD and KEY read 0 (R21, R26, R31). -/
def regValue (r : Reg) (s : State) : Word :=
  match r with
  | .id => idWord
  | .ctrl => ctrlWord s
  | .status => statusWord s
  | .cmd => 0
  | .cfg => cfgWord s.cfg
  | .keystat => keystatWord s
  | .outLen => s.outLen
  | .key _ => 0
  | .nonce i => s.nonce[i]
  | .hdrAddr => s.hdrAddr
  | .hdrLen => s.hdrLen
  | .pldAddr => s.pldAddr
  | .pldLen => s.pldLen
  | .trlAddr => s.trlAddr
  | .trlLen => s.trlLen
  | .outAddr => s.outAddr
  | .opa => s.opa
  | .opb => s.opb
  | .res => s.res
  | .tagOut i => s.tagOut[i]
  | .tagIn i => s.tagIn[i]
  | .blk i => s.blk[i]
  | .s i => s.st[i]

/-- A host read while BUSY = 0: a debug window reads 0 in locked mode (R40), a reserved offset reads 0 (R21). -/
def idleRead (off : BitVec 12) (s : State) : Word :=
  match regAt off.toNat with
  | none => 0
  | some r => if r.isDebug && s.dbgLock then 0 else regValue r s

/-- The write of a register in unlocked mode while BUSY = 0 (R21-R39); a read-only register ignores it. -/
def regStore (r : Reg) (v : Word) (s : State) : State :=
  match r with
  | .ctrl => { s with irqEn := v.getLsbD 0, dbgLock := s.dbgLock || v.getLsbD 1 }
  | .status => { s with done := s.done && !v.getLsbD 1, hazard := s.hazard && !v.getLsbD 12 }
  | .cmd => s.accept v
  | .key i => { s with key := s.key.set i v, keyValid := s.keyValid ||| BitVec.twoPow 4 i.val }
  | .nonce i => { s with nonce := s.nonce.set i v, nonceValid := s.nonceValid ||| BitVec.twoPow 2 i.val }
  | .hdrAddr => { s with hdrAddr := v }
  | .hdrLen => { s with hdrLen := v }
  | .pldAddr => { s with pldAddr := v }
  | .pldLen => { s with pldLen := v }
  | .trlAddr => { s with trlAddr := v }
  | .trlLen => { s with trlLen := v }
  | .outAddr => { s with outAddr := v }
  | .opa => { s with opa := v }
  | .opb => { s with opb := v }
  | .tagIn i => { s with tagIn := s.tagIn.set i v }
  | .blk i => { s with blk := s.blk.set i v }
  | .s i => { s with st := s.st.set i v }
  | .id | .cfg | .keystat | .outLen | .res | .tagOut _ => s

/-- A host write while BUSY = 0: a debug window ignores it in locked mode (R40), a reserved offset always (R21). -/
def idleWrite (off : BitVec 12) (v : Word) (s : State) : State :=
  match regAt off.toNat with
  | none => s
  | some r => if r.isDebug && s.dbgLock then s else regStore r v s

/-- A host read while BUSY = 1: STATUS and ID have their values, any other register gives a free value (R319); a
reserved offset is no register and reads 0 (R71). -/
def busyRead (off : BitVec 12) (s : State) : State :=
  match regAt off.toNat with
  | none => { s with rdata := 0 }
  | some .status => { s with rdata := statusWord s }
  | some .id => { s with rdata := idWord }
  | some _ => { s with rdata := Config.freeRead s.freeIdx, freeIdx := s.freeIdx + 1 }

/-- A host write while BUSY = 1: of a register it is dropped and sets STATUS.HAZARD (R318, R320); a reserved offset is no
register and ignores it (R71). -/
def busyWrite (off : BitVec 12) (s : State) : State :=
  match regAt off.toNat with
  | none => s
  | some _ => { s with hazard := true }

/-- R74: a 32-bit access at an offset that is a multiple of 4. -/
def legalAccess (off : BitVec 12) (size : Nat) : Bool := size = 4 && off.toNat % 4 = 0

/-- A host write to the register window; a narrow or misaligned one is refused (R74). -/
def hostRegWrite (off : BitVec 12) (size : Nat) (v : Word) (s : State) : Answer :=
  if legalAccess off size then .next (if s.busy then busyWrite off s else idleWrite off v s)
  else .refused .badRegisterAccess

/-- A host read of the register window; a narrow or misaligned one is refused (R74). -/
def hostRegRead (off : BitVec 12) (size : Nat) (s : State) : Answer :=
  if legalAccess off size then .next (if s.busy then busyRead off s else { s with rdata := idleRead off s })
  else .refused .badRegisterAccess

/-! ## Data memory from the host's side -/

/-- A whole operation is in flight: the engine is busy with ENCRYPT or DECRYPT. -/
def State.wholeInFlight (s : State) : Bool :=
  s.busy && (match decode s.pending with
    | .ok .encrypt => true
    | .ok .decrypt => true
    | _ => false)

/-- The words that R321 forbids the host to write. -/
def writeForbidden (s : State) (a : Nat) : Bool :=
  s.wholeInFlight && (s.headerRegion.holds a || s.payloadRegion.holds a || s.trailerRegion.holds a || s.outputRegion.holds a)

/-- The words that R321 forbids the host to read. -/
def readForbidden (s : State) (a : Nat) : Bool := s.wholeInFlight && s.outputRegion.holds a

/-- `mw addr, v` (R118), with the host's duty of R321. -/
def hostMemWrite (addr v : Word) (s : State) : Answer :=
  if s.mem.words ≤ addr.toNat then .fault (.noSuchWord addr.toNat)
  else if writeForbidden s addr.toNat then .fault (.inFlightAccess addr.toNat)
  else .next { s with mem := s.mem.put addr.toNat v }

/-- `mr addr` (R118), with the host's duty of R321; an unwritten word has no value (R90). -/
def hostMemRead (addr : Word) (s : State) : Answer :=
  if s.mem.words ≤ addr.toNat then .fault (.noSuchWord addr.toNat)
  else if readForbidden s addr.toNat then .fault (.inFlightAccess addr.toNat)
  else
    match s.mem.get addr.toNat with
    | none => .fault (.unwrittenWord addr.toNat)
    | some v => .next { s with rdata := v }

/-! ## Reset -/

/-- Data memory after a reset: unchanged (R313), but every word of the output region of a whole operation that the reset
abandons becomes unwritten (R312, log 7). -/
def memAfterReset (s : State) : Memory := if s.wholeInFlight then s.mem.forget s.outputRegion else s.mem

/-- The reset input (R310-R313): every register takes its reset value; what the host sees and will do is not the
block's. -/
def hostReset (s : State) : State :=
  { State.reset with mem := memAfterReset s, rdata := s.rdata, freeIdx := s.freeIdx, hostOps := s.hostOps }

end Sys2Proof.Machine
end

