-- ==== Sys2Proof/Machine/System.lean ====
section
/-! DEFINITION. The system commands: NOP and ZEROIZE (spec/44_operations.md R261, R262), and CONFIG with its decode and
its self-test (spec/41_init.md R166-R169). -/

namespace Sys2Proof.Machine

/-- The round count that CONFIG's field asks for, and whether it fell back to the default 4 (R166). -/
def decodeRounds (ro : BitVec 8) : BitVec 6 × Bool :=
  if 1 ≤ ro.toNat ∧ ro.toNat ≤ 63 then (ro.setWidth 6, false) else (4, true)

/-- The tag size that CONFIG's field asks for, and whether it fell back to the default 128 (R166). -/
def decodeTagsel (ts : BitVec 8) : BitVec 9 × Bool :=
  if 1 ≤ ts.toNat ∧ ts.toNat ≤ 10 then (BitVec.ofNat 9 (32 * ts.toNat), false) else (128, true)

/-- The inputs and outputs of the document's known-answer vector (R167). -/
def katKey : Vector Word 4 := #v[0x00112233, 0x44556677, 0x8899AABB, 0xCCDDEEFF]
/-- N* (R167). -/
def katNonce : Vector Word 2 := #v[0xFFFFFFFF, 0xFFFFFFFF]
/-- H* (R167). -/
def katHeader : List Word := [0x10000002, 0x30000004]
/-- P* (R167). -/
def katPayload : List Word := [0x80000007, 0x60000005, 0x40000003, 0x20000001]
/-- C* (R167). -/
def katCipher : List Word := [0x1F8F35CD, 0xCAFA2A38, 0x724C1417, 0x228732CA]
/-- T* (R167). -/
def katTag : List Word := [0x7702CA8A, 0xE8BA5210, 0xFD9B73AD, 0xC0443A0D]
/-- The configuration of the self-test, whatever is requested (R167): R = 4, A = 128. -/
def katParams : Params := ⟨4, 128⟩

/-- SelfTest (R167), on values of its own (R168): it reads no state of the machine. -/
def selfTest : Bool :=
  let e := encryptFn katKey katNonce katHeader katPayload [] katParams
  let d := decryptFn katKey katNonce katHeader e.1 [] e.2 katParams
  e.1 = katCipher && e.2 = katTag && d.2 && d.1 = katPayload

/-- CONFIG's two diagnostics (R169). -/
def State.withDiagnostics (s : State) (rounds tagsel : BitVec 8) : State :=
  { s with rDefaulted := (decodeRounds rounds).2, aDefaulted := (decodeTagsel tagsel).2 }

/-- CONFIG's effect past its sequence check (R169): a failed self-test leaves the block unconfigured. -/
def configEffect (s : State) (rounds tagsel : BitVec 8) : State :=
  if selfTest then { s.withDiagnostics rounds tagsel with cfg := ⟨(decodeRounds rounds).1, (decodeTagsel tagsel).1⟩ }
  else State.raise { s.withDiagnostics rounds tagsel with cfg := ⟨0, 0⟩ } .initializationFailed

/-- NOP (R261): no effect. -/
def execNop (s : State) : Answer := .next s

/-- CONFIG (R169): not while an operation is open; never LOCKED. -/
def execConfig (rounds tagsel : BitVec 8) (s : State) : Answer :=
  guarded [(s.opOpen, .sequenceError)] s (.next (configEffect s rounds tagsel))

/-- ZEROIZE (R262): erase all secret and intermediate data. -/
def execZeroize (s : State) : Answer :=
  .next { s with
    st := Vector.replicate 16 0
    key := Vector.replicate 4 0, nonce := Vector.replicate 2 0, keyValid := 0, nonceValid := 0
    blk := Vector.replicate 10 0, opa := 0, opb := 0, res := 0
    tagOut := Vector.replicate 10 0, tagIn := Vector.replicate 10 0, outLen := 0
    opOpen := false }

end Sys2Proof.Machine
end

