-- ==== Sys2Proof/Machine/Dispatch.lean ====
section
/-! DEFINITION. One arm per command: the meaning it runs (spec/30_encoding.md R111, R112). -/

namespace Sys2Proof.Machine

def exec (i : Instr) (s : State) : Host.Outcome State Fault Refusal :=
  match i with
  | .nop => Sys2Proof.Machine.execNop s
  | .config rounds tagsel => Sys2Proof.Machine.execConfig rounds tagsel s
  | .encrypt => Sys2Proof.Machine.execEncrypt s
  | .decrypt => Sys2Proof.Machine.execDecrypt s
  | .zeroize => Sys2Proof.Machine.execZeroize s
  | .permH => Sys2Proof.Machine.execPermH s
  | .permRotr ramt => Sys2Proof.Machine.execPermRotr ramt s
  | .permG qa qb qc qd => Sys2Proof.Machine.execPermG qa qb qc qd s
  | .permF nr => Sys2Proof.Machine.execPermF nr s
  | .stateInit => Sys2Proof.Machine.execStateInit s
  | .absorbBlk gcount dsel => Sys2Proof.Machine.execAbsorbBlk gcount dsel s
  | .encBlk gcount dsel => Sys2Proof.Machine.execEncBlk gcount dsel s
  | .decBlk gcount dsel => Sys2Proof.Machine.execDecBlk gcount dsel s
  | .finalTag => Sys2Proof.Machine.execFinalTag s
  | .tagCompare => Sys2Proof.Machine.execTagCompare s

end Sys2Proof.Machine
end

