-- ==== Sys2Proof/Machine/Engine.lean ====
section
/-! DEFINITION. The engine's turn (spec/10_state.md R27, spec/30_encoding.md R112): decode, run, complete; and one act of
the outside world. -/

namespace Sys2Proof.Machine

/-- Exec(w) (R112): a word that is no command raises ILLEGAL_COMMAND (R113, R114), any other runs its command. -/
def runWord (w : Word) (s : State) : Answer :=
  match decode w with
  | .error _ => .next (s.raise .illegalCommand)
  | .ok i => exec i s

/-- The completion of the pending command, one indivisible step (R27). -/
def complete (s : State) : Answer :=
  match runWord s.pending s with
  | .next t => .next t.finish
  | .fault r => .fault r
  | .refused r => .refused r

/-- The engine's turn: complete the command while BUSY = 1 (R27, R326), else stay idle (R302, R314). -/
def engineTurn (s : State) : Answer := if s.busy then complete s else .next s

/-- One act of the outside world. -/
def hostAct (op : HostOp) (s : State) : Answer :=
  match op with
  | .regWrite off size v => hostRegWrite off size v s
  | .regRead off size => hostRegRead off size s
  | .memWrite addr v => hostMemWrite addr v s
  | .memRead addr => hostMemRead addr s
  | .reset => .next (hostReset s)
  | .wait => engineTurn s

/-- The word of a table row as the command that the next step runs: the host writes it to CMD (R26) and then does
nothing more, so the engine has its turn. -/
def loadCommand (s : State) (nbits w : Nat) : State :=
  { s.accept (BitVec.ofNat 32 (w % 2 ^ nbits)) with hostOps := [] }

end Sys2Proof.Machine
end

