-- ==== Sys2Proof/Machine/Step.lean ====
section
/-! DEFINITION. One step: the next act of the outside world, or the engine's turn when there is none. -/

namespace Sys2Proof.Machine

/-- One step of the two agents (R20): the state says which of them moves. -/
def step (s : State) : Host.Outcome State Fault Refusal :=
  match s.hostOps with
  | [] => engineTurn s
  | op :: rest => hostAct op { s with hostOps := rest }

/-- `s` with the instruction of these bits accepted as the pending command, so that the next step runs it (log 4). -/
def State.withFetchWord (s : State) (nbits w : Nat) : State := loadCommand s nbits w

end Sys2Proof.Machine
end

