-- ==== Sys2Proof/WellFormed.lean ====
section
/-! DEFINITION. Which command terms carry LEGAL operands (spec/30_encoding.md R115, R116). The widths of the fields
are in the types; the only illegal operand values are RAMT = 0 and GCOUNT in 11..15. An ill-formed command still
decodes and runs: it completes with ILLEGAL_OPERAND. -/

namespace Sys2Proof

/-- A legal rotate amount: ROTR is defined for 0 < r < 32 (R131, R115). -/
def legalRotate (ramt : BitVec 5) : Bool := ramt ≠ 0#5

/-- A legal count of genuine words: a block has 10 words (R110, R115). -/
def legalCount (gcount : BitVec 4) : Bool := gcount.toNat ≤ 10

/-- R116: the command has legal operands. -/
def Instr.wellFormed (i : Instr) : Bool :=
  match i with
  | .nop => true
  | .config _ _ => true
  | .encrypt => true
  | .decrypt => true
  | .zeroize => true
  | .permH => true
  | .permRotr ramt => legalRotate ramt
  | .permG _ _ _ _ => true
  | .permF _ => true
  | .stateInit => true
  | .absorbBlk gcount _ => legalCount gcount
  | .encBlk gcount _ => legalCount gcount
  | .decBlk gcount _ => legalCount gcount
  | .finalTag => true
  | .tagCompare => true

end Sys2Proof
end

