-- ==== Sys2Proof/Safety.lean ====
section
/-! DEFINITION. The terms that claims use: the invariant of the machine, what a whole operation needs, the errors of a
command as the spec's tables give them, and a host that drives an operation block by block. -/

namespace Sys2Proof

/-! ## Classes of commands -/

/-- The commands that take part in locked mode's refusal: opcodes 0x10..0x19 (R112). -/
def Instr.engineLevel (i : Instr) : Bool := 0x10 ≤ (opcodeOf (encode i)).toNat && (opcodeOf (encode i)).toNat ≤ 0x19

/-- ENCRYPT and DECRYPT (R258, R259). -/
def Instr.wholeOp (i : Instr) : Bool := i = .encrypt || i = .decrypt

/-- The commands that read the key and the nonce (R281). -/
def Instr.readsKey (i : Instr) : Bool := i = .stateInit || i.wholeOp

/-- The commands that need the configuration (R281): PERM_F only when NR = 0. -/
def Instr.needsConfig (i : Instr) : Bool :=
  match i with
  | .permF nr => nr = 0#6
  | .stateInit | .absorbBlk _ _ | .encBlk _ _ | .decBlk _ _ | .finalTag | .tagCompare | .encrypt | .decrypt => true
  | .nop | .config _ _ | .zeroize | .permH | .permRotr _ | .permG _ _ _ _ => false

/-- The command is CONFIG (R169). -/
def Instr.isConfig (i : Instr) : Bool :=
  match i with
  | .config _ _ => true
  | .nop | .encrypt | .decrypt | .zeroize | .permH | .permRotr _ | .permG _ _ _ _ | .permF _ | .stateInit => false
  | .absorbBlk _ _ | .encBlk _ _ | .decBlk _ _ | .finalTag | .tagCompare => false

end Sys2Proof

namespace Sys2Proof.Machine

/-! ## The invariant -/

/-- R165: CFG holds (0, 0) or a legal pair. -/
abbrev Params.legal (c : Params) : Prop :=
  (c.r = 0#6 ∧ c.a = 0#9) ∨
    ((1 ≤ c.r.toNat ∧ c.r.toNat ≤ 63) ∧ c.a.toNat % 32 = 0 ∧ 1 ≤ c.a.toNat / 32 ∧ c.a.toNat / 32 ≤ 10)

/-- What every reachable state satisfies: memory in its canonical form; CFG legal (R165); while BUSY = 1, STATUS reads
DONE = 0, ERR = NONE, RESULT = NONE (R319); RESULT is NONE beside an error (R234); and an operation is open only with
the key, the nonce and the configuration that STATE_INIT needs (read from R171, R169, R262). -/
abbrev State.Inv (s : State) : Prop :=
  s.mem.wf ∧ s.cfg.legal ∧
    (s.busy = true → s.done = false ∧ s.err = .noError ∧ s.result = .none) ∧
    (s.err ≠ .noError → s.result = .none) ∧
    (s.opOpen = true → s.cfg.r ≠ 0#6 ∧ s.cfg.a ≠ 0#9 ∧ s.keyValid = 0b1111#4 ∧ s.nonceValid = 0b11#2)

/-! ## Classes of registers -/

/-- The read-write registers that are plain storage (R79): RW in R21's table, but for CTRL. -/
def Reg.isPlain (r : Reg) : Bool :=
  match r with
  | .hdrAddr | .hdrLen | .pldAddr | .pldLen | .trlAddr | .trlLen | .outAddr | .opa | .opb => true
  | .nonce _ | .tagIn _ | .blk _ | .s _ => true
  | .id | .ctrl | .status | .cmd | .cfg | .keystat | .outLen | .key _ | .res | .tagOut _ => false

/-- The read-only registers: RO in R21's table, but for STATUS with its two W1C bits. -/
def Reg.isReadOnly (r : Reg) : Bool :=
  match r with
  | .id | .cfg | .keystat | .outLen | .res | .tagOut _ => true
  | .hdrAddr | .hdrLen | .pldAddr | .pldLen | .trlAddr | .trlLen | .outAddr | .opa | .opb => false
  | .nonce _ | .tagIn _ | .blk _ | .s _ | .ctrl | .status | .cmd | .key _ => false

/-! ## Whose turn it is, and what is in flight -/

/-- At this step the engine has its turn, and `rest` is what the host does after it: the host has nothing left to do, or
it waits. -/
abbrev State.EngineMoves (s : State) (rest : List HostOp) : Prop :=
  (s.hostOps = [] ∧ rest = []) ∨ s.hostOps = .wait :: rest

/-- ENCRYPT or DECRYPT is busy: BUSY = 1 and the pending word is the one of R117. -/
abbrev State.WholeBusy (s : State) : Prop := s.busy = true ∧ (s.pending = 0x00000002 ∨ s.pending = 0x00000003)

/-! ## What commands need -/

/-- The four regions of a whole operation (R255). -/
def State.regions (s : State) : List Region := [s.headerRegion, s.payloadRegion, s.trailerRegion, s.outputRegion]

/-- The block is configured (R165). -/
abbrev State.isConfigured (s : State) : Prop := s.cfg.r ≠ 0#6 ∧ s.cfg.a ≠ 0#9

/-- No non-empty region runs past MEM_WORDS (R256). -/
abbrev State.regionsInRange (s : State) : Prop := ∀ g ∈ s.regions, g.len ≠ 0 → g.addr + g.len ≤ s.mem.words

/-- R257, address by address: no output word is a header or trailer word, and none is a payload word unless the output
starts where the payload starts. -/
def State.outputClear (s : State) : Prop :=
  ∀ a, s.outputRegion.holds a = true →
    s.headerRegion.holds a = false ∧ s.trailerRegion.holds a = false ∧
      (s.outAddr ≠ s.pldAddr → s.payloadRegion.holds a = false)

/-- ENCRYPT and DECRYPT pass every check (R258): key and nonce written, configured, in range, output clear. -/
structure State.WholeReady (s : State) : Prop where
  key : s.keyValid = 0b1111#4
  nonce : s.nonceValid = 0b11#2
  configured : s.isConfigured
  inRange : s.regionsInRange
  clear : s.outputClear

/-- The memory holds the words of the region, in order. -/
def Memory.Holds (m : Memory) (g : Region) (ws : List Word) : Prop :=
  ws.length = g.len ∧ ∀ k, (h : k < ws.length) → m.get (g.addr + k) = some ws[k]

/-- The errors of R281's table that a decoded command can report, each with its cause, in the order of R283. -/
def errorTable (i : Instr) (s : State) : List (Prop × ErrCode) :=
  [(i.engineLevel = true ∧ s.dbgLock = true, .locked),
   (i.wellFormed = false, .illegalOperand),
   (i.isConfig = true ∧ s.opOpen = true, .sequenceError),
   (i.readsKey = true ∧ s.keyValid ≠ 0b1111#4, .invalidKeySize),
   (i.readsKey = true ∧ s.nonceValid ≠ 0b11#2, .invalidNonceSize),
   (i.needsConfig = true ∧ ¬ s.isConfigured, .uninitialized),
   (i.wholeOp = true ∧ ¬ s.regionsInRange, .rangeError),
   (i.wholeOp = true ∧ ¬ s.outputClear, .overlapError)]

/-- `o` is the error of the first row whose cause applies, `none` when no row's does. -/
def FirstApplies : List (Prop × ErrCode) → Option ErrCode → Prop
  | [], o => o = none
  | (cause, e) :: rest, o => (cause ∧ o = some e) ∨ (¬ cause ∧ FirstApplies rest o)

/-! ## A host that drives the phase processor block by block (R205, R323) -/

/-- `ldblk` (R119): the words go to BLK0 up, the rest of BLK is unchanged. -/
def loadBlock (blk : Block) (ws : List Word) : Block :=
  Vector.ofFn fun j : Fin 10 => if j.val < ws.length then ws.getD j.val 0 else blk[j]

/-- The genuine words of block k of a sequence (R192). -/
def genuineWords (x : List Word) (k : Nat) : List Word := (x.drop (10 * k)).take 10

/-- One block command per block of Pad(x), for the first n blocks, each after `ldblk` of its genuine words and with
GCOUNT their number (R205): the state after, and the BLK contents after each command, concatenated. -/
def blockRun (cmd : BitVec 4 → Instr) (x : List Word) (s : State) : Nat → Option (State × List Word)
  | 0 => some (s, [])
  | n + 1 =>
    match blockRun cmd x s n with
    | none => none
    | some (t, out) =>
      match exec (cmd (BitVec.ofNat 4 (genuineWords x n).length)) { t with blk := loadBlock t.blk (genuineWords x n) } with
      | .next u => some (u, out ++ u.blk.toList)
      | .fault _ => none
      | .refused _ => none

/-- The block commands of one phase (R323): none for an empty sequence (R196), else one per block of Pad(x) (R192). -/
def phaseRun (cmd : BitVec 4 → Instr) (x : List Word) (s : State) : Option (State × List Word) :=
  blockRun cmd x s (if x = [] then 0 else x.length / 10 + 1)

/-- The next state of an answer, if it is one. -/
def nextOf (a : Answer) : Option State :=
  match a with
  | .next t => some t
  | .fault _ => none
  | .refused _ => none

/-- A host that builds one operation from the component commands as R323 asks: STATE_INIT, the header's blocks, the
payload's, the trailer's, FINAL_TAG. DSEL gives each block the constant of R194: 1, 2 and 3 stand for 0x02, 0x04 and 0x08
(R109). The answer is the state after and the BLK contents after the payload commands, concatenated. -/
def hostOperation (payloadCmd : BitVec 4 → BitVec 2 → Instr) (h x t : List Word) (s : State) :
    Option (State × List Word) := do
  let opened ← nextOf (exec .stateInit s)
  let headerDone ← phaseRun (fun g => .absorbBlk g (if x ≠ [] then 1 else if t ≠ [] then 2 else 3)) h opened
  let payloadDone ← phaseRun (fun g => payloadCmd g (if t ≠ [] then 2 else 3)) x headerDone.1
  let trailerDone ← phaseRun (fun g => .absorbBlk g 3) t payloadDone.1
  let closed ← nextOf (exec .finalTag trailerDone.1)
  some (closed, payloadDone.2)

end Sys2Proof.Machine
end

