-- ==== Sys2Proof/Certificates/Slice0/Obligations.lean ====
section
/-! DEFINITION. The statements for the provers. Each docstring names the rules of spec/ it rests on. -/

open Sys2Proof Sys2Proof.Machine

/-! ## The permutation core (spec/40_permutation.md) -/

/-- R130: H is a ⊕ b ⊕ ((a ∧ b) << 1), bit by bit too; and the three properties the spec derives from it: H(a, 0) = a, H is
symmetric, H(0x80000000, 0x80000000) = 0. R131: for 0 < r < 32, ROTR(a, r) is (a >> r) ∨ (a << (32 - r)), so its bit i is
bit (i + r) mod 32 of a. -/
def Obligations.HAndRotrBitByBit : Prop :=
  (∀ a b : Word,
    mixH a b = (a ^^^ b) ^^^ ((a &&& b) <<< 1) ∧
    (∀ i, i < 32 → (mixH a b).getLsbD i =
      ((a.getLsbD i ^^ b.getLsbD i) ^^ (decide (i ≠ 0) && (a.getLsbD (i - 1) && b.getLsbD (i - 1))))) ∧
    mixH a 0 = a ∧ mixH a b = mixH b a ∧ mixH 0x80000000 0x80000000 = 0) ∧
  (∀ (a : Word) (r : Nat), 0 < r → r < 32 →
    rotr a r = (a >>> r) ||| (a <<< (32 - r)) ∧ ∀ i, i < 32 → (rotr a r).getLsbD i = a.getLsbD ((i + r) % 32))

/-- R132: G is the rule's eight lines in order, each reading what the lines before it wrote, for any indices, equal ones
too (R142); it writes only S[a], S[b], S[c] and S[d], and leaves the all-zero state as it is; on four distinct indices,
those words after G are the eight lines on four words, and on one index four times the word becomes 0. -/
def Obligations.QuarterRoundOnItsFourWords : Prop :=
  ∀ (S : PState) (a b c d : Fin 16),
    (∀ i : Fin 16, i ≠ a → i ≠ b → i ≠ c → i ≠ d → (quarterG S a b c d)[i] = S[i]) ∧
    quarterG (Vector.replicate 16 0) a b c d = Vector.replicate 16 0 ∧
    (let S1 := S.set a (mixH S[a] S[b])
     let S2 := S1.set d (rotr (S1[a] ^^^ S1[d]) 8)
     let S3 := S2.set c (mixH S2[c] S2[d])
     let S4 := S3.set b (rotr (S3[b] ^^^ S3[c]) 11)
     let S5 := S4.set a (mixH S4[a] S4[b])
     let S6 := S5.set d (rotr (S5[a] ^^^ S5[d]) 16)
     let S7 := S6.set c (mixH S6[c] S6[d])
     let S8 := S7.set b (rotr (S7[b] ^^^ S7[c]) 31)
     quarterG S a b c d = S8) ∧
    (quarterG S a a a a)[a] = 0 ∧
    ([a, b, c, d].Nodup →
      let a1 := mixH S[a] S[b]
      let d1 := rotr (a1 ^^^ S[d]) 8
      let c1 := mixH S[c] d1
      let b1 := rotr (S[b] ^^^ c1) 11
      let a2 := mixH a1 b1
      let d2 := rotr (a2 ^^^ d1) 16
      let c2 := mixH c1 d2
      let b2 := rotr (b1 ^^^ c2) 31
      (quarterG S a b c d)[a] = a2 ∧ (quarterG S a b c d)[b] = b2 ∧
      (quarterG S a b c d)[c] = c2 ∧ (quarterG S a b c d)[d] = d2)

/-- R134: one round is the four columns, then the four diagonals; and the three facts the spec derives from the rule:
F(0, S) = S, F(m + n, S) = F(n, F(m, S)), and the all-zero state is a fixed point. -/
def Obligations.RoundsOfFCompose : Prop :=
  ∀ (m n : Nat) (S : PState),
    permuteF 1 S =
      quarterG (quarterG (quarterG (quarterG (quarterG (quarterG (quarterG (quarterG S 0 4 8 12) 1 5 9 13) 2 6 10 14)
        3 7 11 15) 0 5 10 15) 1 6 11 12) 2 7 8 13) 3 4 9 14 ∧
    permuteF 0 S = S ∧ permuteF (m + n) S = permuteF n (permuteF m S) ∧
    permuteF n (Vector.replicate 16 0) = Vector.replicate 16 0

/-- R135 (which the spec derives from R133 and R134): within a round, the four columns may run in any order, and so
may the four diagonals. -/
def Obligations.RoundScheduleIsFree : Prop :=
  ∀ (S : PState) (cols diags : List (Fin 16 × Fin 16 × Fin 16 × Fin 16)),
    cols.Perm columns → diags.Perm diagonals → diags.foldl groupG (cols.foldl groupG S) = roundF S

/-- The glossary of spec/00_scope.md: the permutation F is invertible. For every round count, no two states have the same
image (and on the finite set of states an injective function is a bijection). -/
def Obligations.PermutationFIsInjective : Prop :=
  ∀ (n : Nat) (S T : PState), permuteF n S = permuteF n T → S = T

/-- R140, R141: in unlocked mode PERM_H completes, writes H(OPA, OPB) to RES and changes nothing else; PERM_ROTR completes
for every legal amount, writes the rotated OPA to RES and changes nothing else; for amount 0 it reports ILLEGAL_OPERAND
and changes nothing else. -/
def Obligations.PermHAndPermRotrComplete : Prop :=
  ∀ s : State, s.dbgLock = false →
    exec .permH s = .next { s with res := mixH s.opa s.opb } ∧
    (∀ r : BitVec 5, r ≠ 0#5 → exec (.permRotr r) s = .next { s with res := s.opa.rotateRight r.toNat }) ∧
    exec (.permRotr 0#5) s = .next { s with err := .illegalOperand }

/-- R142: in unlocked mode PERM_G completes for every index combination, runs G on the state and changes nothing else. -/
def Obligations.PermGCompletes : Prop :=
  ∀ (s : State) (a b c d : BitVec 4), s.dbgLock = false →
    exec (.permG a b c d) s = .next { s with st := quarterG s.st a.toFin b.toFin c.toFin d.toFin }

/-- R143, R108: in unlocked mode PERM_F completes with NR rounds for NR ≠ 0, whatever the configuration; with NR = 0 it
completes with CFG.R rounds when configured; it changes only the state words. -/
def Obligations.PermFCompletes : Prop :=
  ∀ (s : State) (nr : BitVec 6), s.dbgLock = false →
    (nr ≠ 0#6 → exec (.permF nr) s = .next { s with st := permuteF nr.toNat s.st }) ∧
    (s.isConfigured → exec (.permF 0#6) s = .next { s with st := permuteF s.cfg.r.toNat s.st })

/-! ## Domain parameters and the initializer (spec/41_init.md) -/

/-- R163: P(R, A) = (R << 26) ⊕ (D << 18) ⊕ (W << 10) ⊕ A. R164, which the spec derives from it: ⊕ may be ∨, and the
layout is R in bits 31..26, D = 1 in bit 18, W in bit 15, A in bits 8..0, all else 0; with its four examples. -/
def Obligations.ParameterWordLayout : Prop :=
  (∀ c : Params,
    paramWord c = (c.r.setWidth 32 <<< 26) ^^^ ((1 : Word) <<< 18) ^^^ ((32 : Word) <<< 10) ^^^ c.a.setWidth 32 ∧
    paramWord c = (c.r.setWidth 32 <<< 26) ||| ((1 : Word) <<< 18) ||| ((32 : Word) <<< 10) ||| c.a.setWidth 32 ∧
    (paramWord c).extractLsb' 26 6 = c.r ∧ (paramWord c).extractLsb' 19 7 = 0 ∧
    (paramWord c).extractLsb' 18 1 = 1 ∧ (paramWord c).extractLsb' 16 2 = 0 ∧
    (paramWord c).extractLsb' 15 1 = 1 ∧ (paramWord c).extractLsb' 9 6 = 0 ∧
    (paramWord c).extractLsb' 0 9 = c.a) ∧
  paramWord ⟨4, 128⟩ = 0x10048080 ∧ paramWord ⟨1, 32⟩ = 0x04048020 ∧
  paramWord ⟨6, 256⟩ = 0x18048100 ∧ paramWord ⟨63, 320⟩ = 0xFC048140

/-- R167, R303 (the spec's own inference, from 95_test_vectors.md section 1): SelfTest() evaluates to PASS, so CONFIG
can never raise INITIALIZATION_FAILED. -/
def Obligations.SelfTestPasses : Prop := selfTest = true

/-- R166, R169: while no operation is open, CONFIG completes in either mode; each field outside its range falls back to
its default by itself and sets its diagnostic; nothing else changes. While an operation is open it reports SEQUENCE_ERROR
and changes nothing else. -/
def Obligations.ConfigCompletes : Prop :=
  ∀ (s : State) (ro ts : BitVec 8),
    (s.opOpen = false →
      exec (.config ro ts) s = .next { s with
        cfg := { r := if 1 ≤ ro.toNat ∧ ro.toNat ≤ 63 then BitVec.ofNat 6 ro.toNat else 4
                 a := if 1 ≤ ts.toNat ∧ ts.toNat ≤ 10 then BitVec.ofNat 9 (32 * ts.toNat) else 128 }
        rDefaulted := !decide (1 ≤ ro.toNat ∧ ro.toNat ≤ 63)
        aDefaulted := !decide (1 ≤ ts.toNat ∧ ts.toNat ≤ 10) }) ∧
    (s.opOpen = true → exec (.config ro ts) s = .next { s with err := .sequenceError })

/-- R171, R170: in unlocked mode, with key and nonce written and the block configured, STATE_INIT completes: it loads the
state by R170's table with P(R, A) XORed into word 14, permutes, XORs 1 into word 15, permutes again, opens an operation
and changes nothing else. -/
def Obligations.StateInitCompletes : Prop :=
  ∀ s : State, s.dbgLock = false → s.keyValid = 0b1111#4 → s.nonceValid = 0b11#2 → s.isConfigured →
    let loaded : PState :=
      #v[0x243F6A88, s.nonce[0], s.nonce[1], 0x85A308D3, s.key[0], s.key[1], s.key[2], s.key[3],
         0x13198A2E, 0x03707344, 0x254F537A, 0x38531D48, 0x839C6E83, 0xF97A3AE5,
         0x8C91D88C ^^^ paramWord s.cfg, 0x11EAFB59]
    let once := permuteF s.cfg.r.toNat loaded
    exec .stateInit s = .next { s with
      st := permuteF s.cfg.r.toNat (once.set 15 (once[15] ^^^ 1))
      opOpen := true }

/-- R170 with the invertibility of F: for one configuration, no two pairs of key and nonce initialize the same state. -/
def Obligations.InitSeparatesKeysAndNonces : Prop :=
  ∀ (c : Params) (K K' : Vector Word 4) (N N' : Vector Word 2),
    initState K N c = initState K' N' c → K = K' ∧ N = N'

/-! ## Padding and phases (spec/42_phases.md) -/

/-- R191, R192: Pad's length, its number of blocks, and every word of every block: genuine words, then PadWord(g, j). -/
def Obligations.PadSplitsIntoBlocks : Prop :=
  ∀ x : List Word,
    (pad x).length = x.length + (10 - x.length % 10) ∧ x.length < (pad x).length ∧
    (pad x).length ≤ x.length + 10 ∧ (pad x).length % 10 = 0 ∧ blockCount x = x.length / 10 + 1 ∧
    ∀ k j : Nat, k ≤ x.length / 10 → (hj : j < 10) →
      (blockAt (pad x) k)[j] =
        if 10 * k + j < x.length then x.getD (10 * k + j) 0
        else (if j = x.length % 10 then 0x00000001 else 0) ||| (if j = 9 then 0x80000000 else 0)

/-- R204 (the round-trip lemma, which the spec derives from R199-R203): DecPhase on EncPhase's output, from the same
state, returns the payload and reaches the same state. -/
def Obligations.DecPhaseInvertsEncPhase : Prop :=
  ∀ (S : PState) (p : List Word) (dom : Word) (R : Nat),
    (decPhase S (encPhase S p dom R).2 dom R).2 = p ∧
    (decPhase S (encPhase S p dom R).2 dom R).1 = (encPhase S p dom R).1

/-- R205 (which the spec derives from R198-R203 and R210-R212): one block command per block of Pad(x), in order, each
after its genuine words are loaded into BLK, evolves the state as the phase function does; for the payload commands
the BLK outputs, concatenated and cut to |x| words, are the phase's output. The run ends in a next state, and S and
BLK are all it changes. -/
def Obligations.BlockCommandsRunThePhase : Prop :=
  ∀ (s : State) (x : List Word) (dsel : BitVec 2), s.dbgLock = false → s.isConfigured → x ≠ [] →
    (∃ blk out, blockRun (fun g => .absorbBlk g dsel) x s (blockCount x) =
      some ({ s with st := absorbPhase s.st x (domOf dsel) s.cfg.rounds, blk := blk }, out)) ∧
    (∃ blk out, blockRun (fun g => .encBlk g dsel) x s (blockCount x) =
      some ({ s with st := (encPhase s.st x (domOf dsel) s.cfg.rounds).1, blk := blk }, out) ∧
      out.take x.length = (encPhase s.st x (domOf dsel) s.cfg.rounds).2) ∧
    (∃ blk out, blockRun (fun g => .decBlk g dsel) x s (blockCount x) =
      some ({ s with st := (decPhase s.st x (domOf dsel) s.cfg.rounds).1, blk := blk }, out) ∧
      out.take x.length = (decPhase s.st x (domOf dsel) s.cfg.rounds).2)

/-- R210, R198: in unlocked mode, configured, with at most 10 genuine words, ABSORB_BLK completes: the genuine words of
BLK and then the pad words are XORed into S[0..9], 1 << DSEL into S[15], then F(CFG.R); nothing else changes. -/
def Obligations.AbsorbBlkCompletes : Prop :=
  ∀ (s : State) (g : BitVec 4) (d : BitVec 2), s.dbgLock = false → g.toNat ≤ 10 → s.isConfigured →
    ∃ mixed : PState,
      (∀ j, (h : j < 10) → mixed[j] = s.st[j] ^^^ (if j < g.toNat then s.blk[j] else padWord g.toNat j)) ∧
      (∀ j, 10 ≤ j → (h : j < 15) → mixed[j] = s.st[j]) ∧
      mixed[15] = s.st[15] ^^^ BitVec.twoPow 32 d.toNat ∧
      exec (.absorbBlk g d) s = .next { s with st := permuteF s.cfg.r.toNat mixed }

/-- R211, R199: under the same conditions ENC_BLK completes: S evolves as under ABSORB_BLK, BLK[j] becomes the post-XOR
word S[j] for j < g and 0 from there on; nothing else changes. -/
def Obligations.EncBlkCompletes : Prop :=
  ∀ (s : State) (g : BitVec 4) (d : BitVec 2), s.dbgLock = false → g.toNat ≤ 10 → s.isConfigured →
    ∃ (mixed : PState) (out : Block),
      (∀ j, (h : j < 10) → mixed[j] = s.st[j] ^^^ (if j < g.toNat then s.blk[j] else padWord g.toNat j)) ∧
      (∀ j, 10 ≤ j → (h : j < 15) → mixed[j] = s.st[j]) ∧
      mixed[15] = s.st[15] ^^^ BitVec.twoPow 32 d.toNat ∧
      (∀ j, (h : j < 10) → out[j] = if j < g.toNat then s.st[j] ^^^ s.blk[j] else 0) ∧
      exec (.encBlk g d) s = .next { s with st := permuteF s.cfg.r.toNat mixed, blk := out }

/-- R212, R200: under the same conditions DEC_BLK completes: the genuine positions of S[0..9] are overwritten with BLK,
the pad positions XORed with their pad words, 1 << DSEL is XORed into S[15], then F(CFG.R); BLK[j] becomes
S[j] ⊕ BLK[j] for j < g and 0 from there on; nothing else changes. -/
def Obligations.DecBlkCompletes : Prop :=
  ∀ (s : State) (g : BitVec 4) (d : BitVec 2), s.dbgLock = false → g.toNat ≤ 10 → s.isConfigured →
    ∃ (mixed : PState) (out : Block),
      (∀ j, (h : j < 10) → mixed[j] = if j < g.toNat then s.blk[j] else s.st[j] ^^^ padWord g.toNat j) ∧
      (∀ j, 10 ≤ j → (h : j < 15) → mixed[j] = s.st[j]) ∧
      mixed[15] = s.st[15] ^^^ BitVec.twoPow 32 d.toNat ∧
      (∀ j, (h : j < 10) → out[j] = if j < g.toNat then s.st[j] ^^^ s.blk[j] else 0) ∧
      exec (.decBlk g d) s = .next { s with st := permuteF s.cfg.r.toNat mixed, blk := out }

/-- R210-R212: whatever BLKg..BLK9 hold has no effect: the payload commands end in the same state, and ABSORB_BLK in
states that differ in BLK alone, which keeps what it held. -/
def Obligations.BlockCommandsIgnorePadPositions : Prop :=
  ∀ (s : State) (b : Block) (g : BitVec 4) (d : BitVec 2), s.dbgLock = false → g.toNat ≤ 10 → s.isConfigured →
    (∀ j, (h : j < 10) → j < g.toNat → b[j] = s.blk[j]) →
    exec (.encBlk g d) { s with blk := b } = exec (.encBlk g d) s ∧
    exec (.decBlk g d) { s with blk := b } = exec (.decBlk g d) s ∧
    ∃ t, exec (.absorbBlk g d) s = .next t ∧ exec (.absorbBlk g d) { s with blk := b } = .next { t with blk := b }

/-! ## The tag (spec/43_tag.md) -/

/-- R232: CtEq accumulates the XOR of every word pair and compares once; so, as the spec derives, it is true iff
t[i] = u[i] for every i < n. -/
def Obligations.CtEqComparesEveryWord : Prop :=
  ∀ (t u : List Word) (n : Nat),
    (ctEq t u n = true ↔ ∀ i, i < n → t.getD i 0 = u.getD i 0) ∧
    (ctEq t u n = decide ((List.range n).foldl (fun acc i => acc ||| (t.getD i 0 ^^^ u.getD i 0)) 0 = 0))

/-- R240, R230, R231: in unlocked mode and configured, FINAL_TAG completes: S <- F(CFG.R, S), TAG_OUT[i] <- S[i] for
i < A/32 and 0 beyond, the operation closes, nothing else changes. -/
def Obligations.FinalTagCompletes : Prop :=
  ∀ s : State, s.dbgLock = false → s.isConfigured →
    ∃ out : Block,
      (∀ i, (h : i < 10) → out[i] = if i < s.cfg.a.toNat / 32 then (permuteF s.cfg.r.toNat s.st)[i] else 0) ∧
      exec .finalTag s = .next { s with st := permuteF s.cfg.r.toNat s.st, tagOut := out, opOpen := false }

/-- R241, R234: in unlocked mode and configured, TAG_COMPARE completes with RESULT = PASS when the first
A/32 words of TAG_OUT and TAG_IN are equal and RESULT = FAIL when they are not; nothing else changes. -/
def Obligations.TagCompareCompletes : Prop :=
  ∀ s : State, s.dbgLock = false → s.isConfigured →
    ((∀ i, (h : i < 10) → i < s.cfg.a.toNat / 32 → s.tagOut[i] = s.tagIn[i]) →
      exec .tagCompare s = .next { s with result := .pass }) ∧
    (¬ (∀ i, (h : i < 10) → i < s.cfg.a.toNat / 32 → s.tagOut[i] = s.tagIn[i]) →
      exec .tagCompare s = .next { s with result := .fail })

/-- 90_conflicts.md C8, R232: when a supplied tag of A/32 words verifies, the same tag with one bit flipped is rejected,
with an empty plaintext. -/
def Obligations.TagBitFlipIsRejected : Prop :=
  ∀ (K : Vector Word 4) (N : Vector Word 2) (h ct t u p : List Word) (c : Params) (k b : Nat) (hk : k < u.length),
    u.length = c.tagWords → b < 32 → decryptFn K N h ct t u c = (p, true) →
    decryptFn K N h ct t (u.set k (u[k] ^^^ BitVec.twoPow 32 b)) c = ([], false)

/-! ## Whole operations (spec/44_operations.md) -/

/-- R250, R251 (the round-trip property of 95_test_vectors.md 1.3): DecryptFn of EncryptFn's ciphertext and tag is
(payload, true), for every key, nonce, header, payload, trailer and configuration. -/
def Obligations.DecryptFnInvertsEncryptFn : Prop :=
  ∀ (K : Vector Word 4) (N : Vector Word 2) (h p t : List Word) (c : Params),
    decryptFn K N h (encryptFn K N h p t c).1 t (encryptFn K N h p t c).2 c = (p, true)

/-- R253 (which the spec derives from R250, R251): the ciphertext is as long as the payload, the plaintext that
verifies as long as the ciphertext, and the tag has A/32 words. -/
def Obligations.LengthInvariants : Prop :=
  ∀ (K : Vector Word 4) (N : Vector Word 2) (h p t u : List Word) (c : Params),
    (encryptFn K N h p t c).1.length = p.length ∧ (encryptFn K N h p t c).2.length = c.tagWords ∧
    ((decryptFn K N h p t u c).2 = true → (decryptFn K N h p t u c).1.length = p.length) ∧
    ((decryptFn K N h p t u c).2 = false → (decryptFn K N h p t u c).1 = [])

/-- R250, R251 through the component commands (R194-R197, R205, R230, R231, R323): in unlocked mode, with key and nonce
written and the block configured, a host that issues STATE_INIT, ABSORB_BLK for the header's blocks, ENC_BLK for the
payload's, ABSORB_BLK for the trailer's and FINAL_TAG, with no block for an empty sequence and the domain constants of
R194, gets EncryptFn's ciphertext in BLK and its tag in TAG_OUT; every command of the run has a next state. With DEC_BLK, in
a legal configuration (R165), it gets DecryptFn's plaintext, and DecryptFn's verdict is whether the first A/32 words of
TAG_OUT are the supplied ones. -/
def Obligations.ComponentCommandsRunTheOperation : Prop :=
  ∀ (s : State) (h x t u : List Word), s.dbgLock = false → s.keyValid = 0b1111#4 → s.nonceValid = 0b11#2 →
    s.isConfigured →
    (∃ e out, hostOperation .encBlk h x t s = some (e, out) ∧
      out.take x.length = (encryptFn s.key s.nonce h x t s.cfg).1 ∧
      ∀ i, (hi : i < 10) →
        e.tagOut[i] = if i < s.cfg.a.toNat / 32 then (encryptFn s.key s.nonce h x t s.cfg).2.getD i 0 else 0) ∧
    (s.cfg.legal → ∃ e out, hostOperation .decBlk h x t s = some (e, out) ∧
      ((∀ i, (hi : i < 10) → i < s.cfg.a.toNat / 32 → e.tagOut[i] = u.getD i 0) →
        decryptFn s.key s.nonce h x t u s.cfg = (out.take x.length, true)) ∧
      (¬ (∀ i, (hi : i < 10) → i < s.cfg.a.toNat / 32 → e.tagOut[i] = u.getD i 0) →
        decryptFn s.key s.nonce h x t u s.cfg = ([], false)))

/-- R258: when every check passes and the memory holds the header h, the payload p and the trailer t, ENCRYPT completes in
either mode. The words of the output region become the ciphertext and no other word of M changes; TAG_OUT holds the
tag and zeros, OUT_LEN is PLD_LEN, S is all zero, no operation is open, and nothing else changes. -/
def Obligations.EncryptCompletes : Prop :=
  ∀ (s : State) (h p t : List Word), s.WholeReady →
    s.mem.Holds s.headerRegion h → s.mem.Holds s.payloadRegion p → s.mem.Holds s.trailerRegion t →
    ∃ (m : Memory) (tag : Block),
      m.top = s.mem.top ∧ m.Holds s.outputRegion (encryptFn s.key s.nonce h p t s.cfg).1 ∧
      (∀ a, s.outputRegion.holds a = false → m.get a = s.mem.get a) ∧
      (∀ i, (hi : i < 10) →
        tag[i] = if i < s.cfg.a.toNat / 32 then (encryptFn s.key s.nonce h p t s.cfg).2.getD i 0 else 0) ∧
      exec .encrypt s = .next { s with
        mem := m, tagOut := tag, outLen := s.pldLen, st := Vector.replicate 16 0, opOpen := false }

/-- R259: under the same conditions, and when the tag in TAG_IN verifies, DECRYPT completes in either mode: the words of
the output region become the plaintext and no other word of M changes; OUT_LEN is PLD_LEN, RESULT is PASS, TAG_OUT and S
are all zero, no operation is open, and nothing else changes. -/
def Obligations.DecryptCompletesWithPass : Prop :=
  ∀ (s : State) (h c t p : List Word), s.WholeReady →
    s.mem.Holds s.headerRegion h → s.mem.Holds s.payloadRegion c → s.mem.Holds s.trailerRegion t →
    decryptFn s.key s.nonce h c t (s.tagIn.toList.take (s.cfg.a.toNat / 32)) s.cfg = (p, true) →
    ∃ m : Memory,
      m.top = s.mem.top ∧ m.Holds s.outputRegion p ∧
      (∀ a, s.outputRegion.holds a = false → m.get a = s.mem.get a) ∧
      exec .decrypt s = .next { s with
        mem := m, tagOut := Vector.replicate 10 0, outLen := s.pldLen, result := .pass
        st := Vector.replicate 16 0, opOpen := false }

/-- R259: when the tag does not verify, DECRYPT completes with RESULT = FAIL and OUT_LEN = 0, every word of M unchanged,
TAG_OUT and S all zero, no operation open, and nothing else changed: no recovered word becomes visible. -/
def Obligations.DecryptCompletesWithFail : Prop :=
  ∀ (s : State) (h c t p : List Word), s.WholeReady →
    s.mem.Holds s.headerRegion h → s.mem.Holds s.payloadRegion c → s.mem.Holds s.trailerRegion t →
    decryptFn s.key s.nonce h c t (s.tagIn.toList.take (s.cfg.a.toNat / 32)) s.cfg = (p, false) →
    exec .decrypt s = .next { s with
      tagOut := Vector.replicate 10 0, outLen := 0, result := .fail, st := Vector.replicate 16 0, opOpen := false }

/-- R258, R259, R204: after ENCRYPT, a DECRYPT in place over the output region, with TAG_OUT copied to TAG_IN, passes and
leaves the payload in the output region; a word outside that region is as it was before ENCRYPT. -/
def Obligations.DecryptUndoesEncrypt : Prop :=
  ∀ (s t : State) (h p tr : List Word), s.WholeReady → s.cfg.legal →
    s.mem.Holds s.headerRegion h → s.mem.Holds s.payloadRegion p → s.mem.Holds s.trailerRegion tr →
    exec .encrypt s = .next t →
    ∃ u, exec .decrypt { t with tagIn := t.tagOut, pldAddr := s.outAddr } = .next u ∧
      u.result = .pass ∧ u.err = s.err ∧ u.outLen = s.pldLen ∧ u.mem.Holds s.outputRegion p ∧
      ∀ a, s.outputRegion.holds a = false → u.mem.get a = s.mem.get a

/-- R90: when every check passes but some word of an input region has never been written, ENCRYPT and DECRYPT fault, and
the fault names such a word. -/
def Obligations.UnwrittenInputFaults : Prop :=
  ∀ (s : State) (a : Nat), s.WholeReady → s.mem.get a = none →
    (s.headerRegion.holds a = true ∨ s.payloadRegion.holds a = true ∨ s.trailerRegion.holds a = true) →
    ∃ b, s.mem.get b = none ∧
      (s.headerRegion.holds b = true ∨ s.payloadRegion.holds b = true ∨ s.trailerRegion.holds b = true) ∧
      exec .encrypt s = .fault (.unwrittenWord b) ∧ exec .decrypt s = .fault (.unwrittenWord b)

/-- R261, R262: NOP completes in either mode and changes nothing. ZEROIZE completes in either mode, clears the listed
registers and changes nothing else. -/
def Obligations.NopAndZeroizeComplete : Prop :=
  ∀ s : State,
    exec .nop s = .next s ∧
    ∃ t, exec .zeroize s = .next t ∧
      (∀ i, (h : i < 16) → t.st[i] = 0) ∧ (∀ i, (h : i < 4) → t.key[i] = 0) ∧ (∀ i, (h : i < 2) → t.nonce[i] = 0) ∧
      (∀ i, (h : i < 10) → t.blk[i] = 0 ∧ t.tagOut[i] = 0 ∧ t.tagIn[i] = 0) ∧
      t = { s with st := t.st, key := t.key, nonce := t.nonce, keyValid := 0, nonceValid := 0, blk := t.blk, opa := 0
                   opb := 0, res := 0, tagOut := t.tagOut, tagIn := t.tagIn, outLen := 0, opOpen := false }

/-! ## Errors and modes (spec/60_exceptions.md) -/

/-- R281, R283: a decoded command whose first applicable cause, in R283's order, is that of error e ends with
STATUS.ERR = e and changes nothing else; a command to which no cause applies changes STATUS.ERR in no next state. R282: so
errors are precise, and a command that changes STATUS.ERR changes nothing else. -/
def Obligations.FirstErrorIsReported : Prop :=
  ∀ (i : Instr) (s : State),
    (∀ e, FirstApplies (errorTable i s) (some e) → exec i s = .next { s with err := e }) ∧
    (FirstApplies (errorTable i s) none → ∀ t, exec i s = .next t → t.err = s.err) ∧
    (∀ t, exec i s = .next t → t.err ≠ s.err → t = { s with err := t.err })

/-- R113, R114, R27: a pending word with a reserved opcode, or a command's word with any reserved bit of its format set,
completes with ILLEGAL_COMMAND and changes nothing else but the completion flags, in either mode. -/
def Obligations.IllegalWordsChangeNothing : Prop :=
  ∀ (s : State) (rest : List HostOp), s.EngineMoves rest → s.busy = true →
    ((0x05 ≤ s.pending.toNat % 256 ∧ s.pending.toNat % 256 ≤ 0x0F ∨ 0x1A ≤ s.pending.toNat % 256) →
      step s = .next { s with err := .illegalCommand, busy := false, done := true, hostOps := rest }) ∧
    (∀ (i : Instr) (r : Word), r ≠ 0 → r &&& reservedMask (formatOf i) = r → s.pending = encode i ||| r →
      step s = .next { s with err := .illegalCommand, busy := false, done := true, hostOps := rest })

/-- R297: locked mode changes nothing for NOP, CONFIG, ENCRYPT, DECRYPT and ZEROIZE: they answer the same with
CTRL.DBG_LOCK at either value, which they keep. -/
def Obligations.LockDoesNotTouchOtherCommands : Prop :=
  ∀ (i : Instr) (s : State) (b : Bool), i.engineLevel = false →
    (∀ t, exec i s = .next t → exec i { s with dbgLock := b } = .next { t with dbgLock := b }) ∧
    (∀ r, exec i s = .fault r → exec i { s with dbgLock := b } = .fault r)

/-- R23: while BUSY = 0 a host write of v to CTRL does IRQ_EN <- v[0], sets DBG_LOCK if v[1] = 1, and nothing else; CTRL
reads IRQ_EN in bit 0, DBG_LOCK in bit 1 and 0 elsewhere. R296: so a write with bit 1 set enters locked mode; no step but
a reset leaves it, and a reset does. -/
def Obligations.LockedModeEntryAndExit : Prop :=
  (∀ (s : State) (v : Word) (rest : List HostOp), s.busy = false → s.hostOps = .regWrite 0x004 4 v :: rest →
    step s = .next { s with irqEn := v.getLsbD 0, dbgLock := s.dbgLock || v.getLsbD 1, hostOps := rest }) ∧
  (∀ s : State, (idleRead 0x004 s).getLsbD 0 = s.irqEn ∧ (idleRead 0x004 s).getLsbD 1 = s.dbgLock ∧
    (idleRead 0x004 s).extractLsb' 2 30 = 0) ∧
  (∀ s t : State, s.dbgLock = true → s.hostOps.head? ≠ some .reset → step s = .next t → t.dbgLock = true) ∧
  (∀ (s t : State) (rest : List HostOp), s.hostOps = .reset :: rest → step s = .next t → t.dbgLock = false)

/-- R33, R45, R77: no command writes CTRL, HAZARD, BUSY, DONE, PENDING, a descriptor or the size of M; only ENCRYPT and
DECRYPT change a word of M. -/
def Obligations.CommandsKeepHostRegisters : Prop :=
  ∀ (i : Instr) (s t : State), exec i s = .next t →
    (t.irqEn = s.irqEn ∧ t.dbgLock = s.dbgLock ∧ t.hazard = s.hazard ∧ t.busy = s.busy ∧ t.done = s.done ∧
      t.pending = s.pending) ∧
    (t.hdrAddr = s.hdrAddr ∧ t.hdrLen = s.hdrLen ∧ t.pldAddr = s.pldAddr ∧ t.pldLen = s.pldLen ∧
      t.trlAddr = s.trlAddr ∧ t.trlLen = s.trlLen ∧ t.outAddr = s.outAddr) ∧
    (t.rdata = s.rdata ∧ t.freeIdx = s.freeIdx ∧ t.hostOps = s.hostOps ∧ t.mem.top = s.mem.top) ∧
    (i.wholeOp = false → t.mem = s.mem)

/-- R28-R39, R45: which commands may change CFG, the diagnostics, the key and the nonce with their valid bits, TAG_IN and
the operands, RES, BLK, TAG_OUT, OUT_LEN, RESULT, OP_OPEN and S. -/
def Obligations.RegistersKeepTheirWriters : Prop :=
  ∀ (i : Instr) (s t : State), exec i s = .next t →
    (i.isConfig = false → t.cfg = s.cfg ∧ t.rDefaulted = s.rDefaulted ∧ t.aDefaulted = s.aDefaulted) ∧
    (i ≠ .zeroize → t.key = s.key ∧ t.nonce = s.nonce ∧ t.keyValid = s.keyValid ∧ t.nonceValid = s.nonceValid ∧
      t.tagIn = s.tagIn ∧ t.opa = s.opa ∧ t.opb = s.opb) ∧
    (i ≠ .zeroize → i ≠ .permH → (∀ r, i ≠ .permRotr r) → t.res = s.res) ∧
    (i ≠ .zeroize → (∀ g d, i ≠ .encBlk g d ∧ i ≠ .decBlk g d) → t.blk = s.blk) ∧
    (i ≠ .zeroize → i ≠ .finalTag → i.wholeOp = false → t.tagOut = s.tagOut) ∧
    (i ≠ .zeroize → i.wholeOp = false → t.outLen = s.outLen) ∧
    (i ≠ .tagCompare → i ≠ .decrypt → t.result = s.result) ∧
    (i ≠ .stateInit → i ≠ .finalTag → i ≠ .zeroize → i.wholeOp = false → t.opOpen = s.opOpen) ∧
    ((i = .nop ∨ i.isConfig = true ∨ i = .permH ∨ (∃ r, i = .permRotr r) ∨ i = .tagCompare) → t.st = s.st)

/-- R288: irq is CTRL.IRQ_EN ∧ STATUS.DONE. A completion raises it exactly when IRQ_EN is set; it falls with a host write
of 1 to STATUS.DONE and with the acceptance of a command; setting IRQ_EN while DONE = 1 raises it at once, and clearing
IRQ_EN lowers it and keeps DONE. -/
def Obligations.IrqFollowsDone : Prop :=
  ∀ s : State, s.irq = (s.irqEn && s.done) ∧ s.finish.irq = s.irqEn ∧ (∀ w, (s.accept w).irq = false) ∧
    (s.busy = false → ∀ v : Word,
      (v.getLsbD 1 = true → ∃ t, hostRegWrite 0x008 4 v s = .next t ∧ t.irq = false ∧ t.irqEn = s.irqEn) ∧
      (v.getLsbD 0 = true → ∃ t, hostRegWrite 0x004 4 v s = .next t ∧ t.irq = s.done ∧ t.done = s.done) ∧
      (v.getLsbD 0 = false → ∃ t, hostRegWrite 0x004 4 v s = .next t ∧ t.irq = false ∧ t.done = s.done))

/-! ## The register window (spec/10_state.md, spec/20_memory.md) -/

/-- R21: every register is found at its offset, which is a multiple of 4 inside the window, and at no other offset; and
the offsets are those of R21's table. R72: whatever BUS_ENDIAN is, a register value carried over the
bus is that value (that its orders are little and big is the model's choice, log 13). -/
def Obligations.RegisterMapRoundTrip : Prop :=
  (∀ r : Reg, regAt r.offset = some r ∧ r.offset % 4 = 0 ∧ r.offset < 0x1000) ∧
  (∀ (off : Nat) (r : Reg), regAt off = some r → off = r.offset) ∧
  (Reg.offset .id = 0x000 ∧ Reg.offset .ctrl = 0x004 ∧ Reg.offset .status = 0x008 ∧ Reg.offset .cmd = 0x00C ∧
    Reg.offset .cfg = 0x010 ∧ Reg.offset .keystat = 0x014 ∧ Reg.offset .outLen = 0x018) ∧
  ((∀ i, Reg.offset (.key i) = 0x020 + 4 * i.val) ∧ (∀ i, Reg.offset (.nonce i) = 0x030 + 4 * i.val)) ∧
  (Reg.offset .hdrAddr = 0x040 ∧ Reg.offset .hdrLen = 0x044 ∧ Reg.offset .pldAddr = 0x048 ∧
    Reg.offset .pldLen = 0x04C ∧ Reg.offset .trlAddr = 0x050 ∧ Reg.offset .trlLen = 0x054 ∧
    Reg.offset .outAddr = 0x058) ∧
  (Reg.offset .opa = 0x060 ∧ Reg.offset .opb = 0x064 ∧ Reg.offset .res = 0x068) ∧
  ((∀ i, Reg.offset (.tagOut i) = 0x080 + 4 * i.val) ∧ (∀ i, Reg.offset (.tagIn i) = 0x0C0 + 4 * i.val) ∧
    (∀ i, Reg.offset (.blk i) = 0x100 + 4 * i.val) ∧ (∀ i, Reg.offset (.s i) = 0x140 + 4 * i.val)) ∧
  (∀ v : Word, busTransfer v = v ∧ ∀ e : ByteOrder, busValue e (busLanes e v) = v)

/-- R24: where each field of STATUS stands, with the numbers of RESULT (R234) and ERR (R281). R28, R29: where the fields of
CFG and KEYSTAT stand, and 0 elsewhere. R25: while BUSY = 0 a host write of v to STATUS clears DONE if v[1] = 1 and
HAZARD if v[12] = 1, and does nothing else. -/
def Obligations.StatusFieldsAndWrite : Prop :=
  (∀ s : State,
    (statusWord s).getLsbD 0 = s.busy ∧ (statusWord s).getLsbD 1 = s.done ∧
    (statusWord s).extractLsb' 2 2 = resultBits s.result ∧ (statusWord s).extractLsb' 4 4 = errBits s.err ∧
    (statusWord s).getLsbD 8 = s.rDefaulted ∧ (statusWord s).getLsbD 9 = s.aDefaulted ∧
    (statusWord s).getLsbD 10 = decide (s.cfg.r ≠ 0#6 ∧ s.cfg.a ≠ 0#9) ∧ (statusWord s).getLsbD 11 = s.opOpen ∧
    (statusWord s).getLsbD 12 = s.hazard ∧ (statusWord s).getLsbD 13 = s.dbgLock ∧
    (statusWord s).extractLsb' 14 18 = 0) ∧
  (resultBits .none = 0 ∧ resultBits .pass = 1 ∧ resultBits .fail = 2) ∧
  (errBits .noError = 0 ∧ errBits .uninitialized = 1 ∧ errBits .invalidKeySize = 2 ∧ errBits .invalidNonceSize = 3 ∧
    errBits .initializationFailed = 4 ∧ errBits .illegalCommand = 5 ∧ errBits .illegalOperand = 6 ∧
    errBits .rangeError = 7 ∧ errBits .overlapError = 8 ∧ errBits .locked = 9 ∧ errBits .sequenceError = 10) ∧
  (∀ c : Params, (cfgWord c).extractLsb' 0 6 = c.r ∧ (cfgWord c).extractLsb' 6 10 = 0 ∧
    (cfgWord c).extractLsb' 16 9 = c.a ∧ (cfgWord c).extractLsb' 25 7 = 0) ∧
  (∀ s : State, (keystatWord s).extractLsb' 0 4 = s.keyValid ∧ (keystatWord s).extractLsb' 4 2 = s.nonceValid ∧
    (keystatWord s).extractLsb' 6 26 = 0) ∧
  (∀ (s : State) (v : Word) (rest : List HostOp), s.busy = false → s.hostOps = .regWrite 0x008 4 v :: rest →
    step s = .next { s with
      done := if v.getLsbD 1 then false else s.done
      hazard := if v.getLsbD 12 then false else s.hazard
      hostOps := rest })

/-- R26: a host write to CMD while BUSY = 0 accepts the command, whatever the word, and changes nothing else; while
BUSY = 1 it accepts nothing (PENDING stays, HAZARD is set as R320 says). CMD reads 0 while BUSY = 0. -/
def Obligations.CmdWriteAccepts : Prop :=
  (∀ (s : State) (v : Word) (rest : List HostOp), s.hostOps = .regWrite 0x00C 4 v :: rest →
    (s.busy = false → step s = .next { s with
      pending := v, busy := true, done := false, err := .noError, result := .none, hostOps := rest }) ∧
    (s.busy = true → step s = .next { s with hazard := true, hostOps := rest })) ∧
  (∀ s : State, idleRead 0x00C s = 0)

/-- R318, R320: while BUSY = 1 a host write to any register, CMD included, sets STATUS.HAZARD and changes nothing else. R71:
at a reserved offset, which is no register, it changes nothing. -/
def Obligations.BusyWritesAreDropped : Prop :=
  ∀ (s : State) (v : Word) (rest : List HostOp), s.busy = true →
    (∀ r : Reg, s.hostOps = .regWrite (BitVec.ofNat 12 r.offset) 4 v :: rest →
      step s = .next { s with hazard := true, hostOps := rest }) ∧
    (∀ off : BitVec 12, off.toNat % 4 = 0 → regAt off.toNat = none → s.hostOps = .regWrite off 4 v :: rest →
      step s = .next { s with hostOps := rest })

/-- R79, R319, R22, R21, R71: a legal host read completes and changes only what the host sees (and the model's count of free
values). While BUSY = 0 it sees the same value when the read is repeated, and at the offset of a register that is no debug
window in locked mode it sees what that register holds, the write-only CMD and KEYi reading 0 (R26, R31). A reserved
offset reads 0 at any time. While BUSY = 1 the host sees STATUS with BUSY set, and ID is 0x4E4F5258 at any time. -/
def Obligations.HostReadsHaveNoSideEffects : Prop :=
  (∀ (s : State) (off : BitVec 12) (rest : List HostOp), off.toNat % 4 = 0 → s.hostOps = .regRead off 4 :: rest →
    ∃ (v : Word) (n : Nat), step s = .next { s with rdata := v, freeIdx := n, hostOps := rest } ∧
      (s.busy = false → n = s.freeIdx ∧ v = idleRead off s ∧
        ∀ w ops, idleRead off { s with rdata := w, hostOps := ops } = v) ∧
      (s.busy = false → ∀ r : Reg, off = BitVec.ofNat 12 r.offset → r.isDebug = false ∨ s.dbgLock = false →
        v = regValue r s) ∧
      (regAt off.toNat = none → v = 0 ∧ n = s.freeIdx) ∧
      (off = 0x008 → v = statusWord s) ∧ (off = 0x000 → v = 0x4E4F5258)) ∧
  (∀ s : State,
    (regValue .id s = 0x4E4F5258 ∧ regValue .ctrl s = ctrlWord s ∧ regValue .status s = statusWord s ∧
      regValue .cmd s = 0 ∧ regValue .cfg s = cfgWord s.cfg ∧ regValue .keystat s = keystatWord s ∧
      regValue .outLen s = s.outLen ∧ (∀ i, regValue (.key i) s = 0) ∧ (∀ i, regValue (.nonce i) s = s.nonce[i])) ∧
    (regValue .hdrAddr s = s.hdrAddr ∧ regValue .hdrLen s = s.hdrLen ∧ regValue .pldAddr s = s.pldAddr ∧
      regValue .pldLen s = s.pldLen ∧ regValue .trlAddr s = s.trlAddr ∧ regValue .trlLen s = s.trlLen ∧
      regValue .outAddr s = s.outAddr) ∧
    (regValue .opa s = s.opa ∧ regValue .opb s = s.opb ∧ regValue .res s = s.res ∧
      (∀ i, regValue (.tagOut i) s = s.tagOut[i]) ∧ (∀ i, regValue (.tagIn i) s = s.tagIn[i]) ∧
      (∀ i, regValue (.blk i) s = s.blk[i]) ∧ (∀ i, regValue (.s i) s = s.st[i])))

/-- R40, R31 (decision D57): in locked mode, while BUSY = 0, a debug window reads 0 and ignores writes; and no register
read depends on the key, the operands, RES, BLK or S: two states that differ in these alone read the same at every
offset. -/
def Obligations.LockedModeHidesSecrets : Prop :=
  ∀ s : State, s.dbgLock = true →
    (∀ (r : Reg) (v : Word), s.busy = false → r.isDebug = true →
      hostRegRead (BitVec.ofNat 12 r.offset) 4 s = .next { s with rdata := 0 } ∧
      hostRegWrite (BitVec.ofNat 12 r.offset) 4 v s = .next s) ∧
    (∀ (K : Vector Word 4) (x y z : Word) (B : Block) (S : PState) (off : BitVec 12),
      idleRead off { s with key := K, opa := x, opb := y, res := z, blk := B, st := S } = idleRead off s)

/-- R74: a host access to the register window that is not 4 bytes wide, or not at a multiple of 4, is refused. That it is
refused while BUSY = 1 too is the model's inference (log 11). -/
def Obligations.NarrowOrMisalignedAccessIsRefused : Prop :=
  ∀ (s : State) (off : BitVec 12) (size : Nat) (v : Word) (rest : List HostOp), size ≠ 4 ∨ off.toNat % 4 ≠ 0 →
    (s.hostOps = .regRead off size :: rest → step s = .refused .badRegisterAccess) ∧
    (s.hostOps = .regWrite off size v :: rest → step s = .refused .badRegisterAccess)

/-- R21, R32-R39, R79: while BUSY = 0, a plain read-write register (a descriptor, NONCE or TAG_IN in either mode; OPA, OPB,
BLK or S in unlocked mode) takes the word written to it, every other register keeps what it holds, but for KEYSTAT after a
write of NONCE, and so do KEY, M, PENDING and what is not the block's. A write to a read-only register or to a reserved
offset changes nothing, in either mode. -/
def Obligations.RegisterWritesReadBack : Prop :=
  ∀ (s : State) (v : Word), s.busy = false →
    (∀ r : Reg, Reg.isPlain r = true → r.isDebug = false ∨ s.dbgLock = false →
      ∃ t, hostRegWrite (BitVec.ofNat 12 r.offset) 4 v s = .next t ∧ regValue r t = v ∧
        (∀ q : Reg, q ≠ r → q ≠ .keystat → regValue q t = regValue q s) ∧
        ((∀ i, r ≠ .nonce i) → regValue .keystat t = regValue .keystat s) ∧
        (t.key = s.key ∧ t.mem = s.mem ∧ t.pending = s.pending) ∧
        (t.rdata = s.rdata ∧ t.freeIdx = s.freeIdx ∧ t.hostOps = s.hostOps)) ∧
    (∀ r : Reg, Reg.isReadOnly r = true → hostRegWrite (BitVec.ofNat 12 r.offset) 4 v s = .next s) ∧
    (∀ off : BitVec 12, off.toNat % 4 = 0 → regAt off.toNat = none → hostRegWrite off 4 v s = .next s)

/-- R31, R32, R29: while BUSY = 0, a write of KEYi or NONCEi stores the word, sets its valid bit and no other, and changes
nothing else. -/
def Obligations.KeyWritesSetTheirValidBit : Prop :=
  ∀ (s : State) (v : Word), s.busy = false →
    (∀ i : Fin 4, ∃ kv : BitVec 4,
      (∀ j, j < 4 → kv.getLsbD j = (s.keyValid.getLsbD j || decide (j = i.val))) ∧
      hostRegWrite (BitVec.ofNat 12 (0x020 + 4 * i.val)) 4 v s =
        .next { s with key := s.key.set i v, keyValid := kv }) ∧
    (∀ i : Fin 2, ∃ nv : BitVec 2,
      (∀ j, j < 2 → nv.getLsbD j = (s.nonceValid.getLsbD j || decide (j = i.val))) ∧
      hostRegWrite (BitVec.ofNat 12 (0x030 + 4 * i.val)) 4 v s =
        .next { s with nonce := s.nonce.set i v, nonceValid := nv })

/-- R75, R118: a host write of a word of M stores that word and changes nothing else, and a host read of a written word
gives it and changes nothing else, whether or not the block is busy, but for the words that R321 keeps from the host: any
region's from a write, the output region's from a read, while ENCRYPT or DECRYPT is busy. That a word at or above MEM_WORDS
faults is the model's choice (log 10), and so is the fault of a read of an unwritten word (log 3). -/
def Obligations.HostMemoryAccess : Prop :=
  ∀ (s : State) (a v : Word) (rest : List HostOp),
    (s.hostOps = .memWrite a v :: rest →
      (a.toNat < s.mem.words → ¬ (s.WholeBusy ∧ ∃ g ∈ s.regions, g.addr ≤ a.toNat ∧ a.toNat < g.addr + g.len) →
        ∃ m : Memory,
          step s = .next { s with mem := m, hostOps := rest } ∧ m.top = s.mem.top ∧ m.get a.toNat = some v ∧
          ∀ b, b ≠ a.toNat → m.get b = s.mem.get b) ∧
      (s.mem.words ≤ a.toNat → step s = .fault (.noSuchWord a.toNat))) ∧
    (s.hostOps = .memRead a :: rest →
      (a.toNat < s.mem.words →
        ¬ (s.WholeBusy ∧ s.outAddr.toNat ≤ a.toNat ∧ a.toNat < s.outAddr.toNat + s.pldLen.toNat) →
        (∀ w, s.mem.get a.toNat = some w → step s = .next { s with rdata := w, hostOps := rest }) ∧
        (s.mem.get a.toNat = none → step s = .fault (.unwrittenWord a.toNat))) ∧
      (s.mem.words ≤ a.toNat → step s = .fault (.noSuchWord a.toNat)))

/-- R321: while ENCRYPT or DECRYPT is busy, a host write to an existing word of any of its regions faults, and so does a
host read of an existing word of its output region. -/
def Obligations.InFlightAccessFaults : Prop :=
  ∀ (s : State) (a v : Word), s.busy = true → s.pending = 0x00000002 ∨ s.pending = 0x00000003 →
    a.toNat < s.mem.words →
    ((∃ g ∈ s.regions, g.addr ≤ a.toNat ∧ a.toNat < g.addr + g.len) →
      hostMemWrite a v s = .fault (.inFlightAccess a.toNat)) ∧
    (s.outAddr.toNat ≤ a.toNat → a.toNat < s.outAddr.toNat + s.pldLen.toNat →
      hostMemRead a s = .fault (.inFlightAccess a.toNat))

/-! ## Reset (spec/70_reset_and_hazards.md) -/

/-- R44, R311: at reset every register reads 0 but ID, irq is low, no operation is open and nothing is pending
completion. (PENDING's value there is the model's choice, log 2, and no part of this statement.) -/
def Obligations.ResetReadsZero : Prop :=
  (∀ r : Reg, r ≠ .id → regValue r State.reset = 0) ∧ regValue .id State.reset = 0x4E4F5258 ∧
  (∀ i, (h : i < 4) → State.reset.key[i] = 0) ∧
  State.reset.irq = false ∧ State.reset.opOpen = false ∧ State.reset.busy = false

/-- R310-R313: asserting reset puts every register at its reset value, whatever the block was doing. Every word of the
output region of a busy ENCRYPT or DECRYPT becomes unwritten (R312, log 7), and no other word of M changes. (That PENDING
becomes 0 is the model's choice, log 2; that what the host saw and will do, and the model's count of free values, survive
is log 5.) -/
def Obligations.ResetInput : Prop :=
  ∀ (s : State) (rest : List HostOp), s.hostOps = .reset :: rest →
    ∃ m : Memory,
      step s = .next { State.reset with mem := m, rdata := s.rdata, freeIdx := s.freeIdx, hostOps := rest } ∧
      m.top = s.mem.top ∧
      (s.WholeBusy → ∀ a, m.get a = if s.outputRegion.holds a then none else s.mem.get a) ∧
      (¬ s.WholeBusy → m = s.mem)

/-! ## The step, the decoder and the invariant -/

/-- R27, R112: when it is the engine's turn, the host having nothing left to do or waiting, and the pending word decodes to
a command, one step is the command's meaning followed by the completion writes BUSY <- 0 and DONE <- 1; a fault or a
refusal of the command is the step's. -/
def Obligations.StepRunsTheDecodedCommand : Prop :=
  ∀ (s : State) (rest : List HostOp) (i : Instr), s.EngineMoves rest → s.busy = true → decode s.pending = .ok i →
    step s = match exec i { s with hostOps := rest } with
      | .next t => .next { t with busy := false, done := true }
      | .fault r => .fault r
      | .refused r => .refused r

/-- R27, R280, R326, R90, R302: at the engine's turn, the host having nothing left to do or waiting, an idle block stays as it
is; a busy one completes its command, with BUSY = 0 and DONE = 1 afterwards, unless ENCRYPT or DECRYPT meets an unwritten
word. No command is ever refused. -/
def Obligations.EngineAlwaysCompletes : Prop :=
  ∀ (s : State) (rest : List HostOp), s.EngineMoves rest →
    (s.busy = false → step s = .next { s with hostOps := rest }) ∧
    (s.busy = true →
      (∃ t, step s = .next t ∧ t.busy = false ∧ t.done = true ∧ t.hostOps = rest) ∨
      (∃ a, step s = .fault (.unwrittenWord a) ∧ s.mem.get a = none ∧
        (s.pending = 0x00000002 ∨ s.pending = 0x00000003)))

/-- R100-R106, R111, R117: decoding an encoded command gives it back, for every command and every value of every operand
field, legal operand or not. -/
def Obligations.DecodeOfEncode : Prop := ∀ i : Instr, decode (encode i) = .ok i

/-- R111, R116: a word that decodes is the encoding of the command it decodes to, so no two words name one command. -/
def Obligations.EncodeOfDecode : Prop := ∀ (w : Word) (i : Instr), decode w = .ok i → encode i = w

/-- R117 and the words of 95_test_vectors.md: a few command words and the commands they stand for. -/
def Obligations.SpecWordsDecode : Prop :=
  decode 0x00000000 = .ok .nop ∧ decode 0x000A3F01 = .ok (.config 63 10) ∧ decode 0x00000002 = .ok .encrypt ∧
  decode 0x00000811 = .ok (.permRotr 8) ∧ decode 0x00C84012 = .ok (.permG 0 4 8 12) ∧
  decode 0x00000113 = .ok (.permF 1) ∧ decode 0x00000014 = .ok .stateInit ∧
  decode 0x00002A15 = .ok (.absorbBlk 10 2) ∧ decode 0x00003417 = .ok (.decBlk 4 3) ∧
  decode 0x00000019 = .ok .tagCompare ∧ decode 0x00000110 = .error .reservedBits ∧
  decode 0x000000FF = .error .reservedOpcode

/-- R165, R319, R234 and the memory's canonical form, with the open operation's needs (R171, R169, R262). R165's
clause is the spec's own inference, the open operation's clause the model's (log 8). Every step of either agent keeps
the invariant. -/
def Obligations.EveryStepKeepsTheInvariant : Prop := ∀ s t : State, s.Inv → step s = .next t → t.Inv

/-- The invariant holds right after reset. -/
def Obligations.ResetSatisfiesTheInvariant : Prop := State.reset.Inv
end

