-- ==== Sys2Proof/Laws/Bits.lean ====
section
/-! SUPPORT. The bits of a command's fields, so that no proof unfolds the placing of a field. -/

namespace Sys2Proof

/-- The bits of a field placed at `lo`. -/
theorem getLsbD_fieldAt {n : Nat} (v : BitVec n) (lo i : Nat) (hi : i < 32) :
    (fieldAt v lo).getLsbD i = (decide (lo ≤ i) && v.getLsbD (i - lo)) := by
  simp only [fieldAt, BitVec.getLsbD_shiftLeft, BitVec.getLsbD_setWidth]
  by_cases h : i < lo
  · simp [h]
  · simp [h, hi, show i - lo < 32 by omega, show lo ≤ i by omega]

/-- `getLsbD_fieldAt` in the form that `simp` brings a literal index to. -/
theorem getElem_fieldAt {n : Nat} (v : BitVec n) (lo i : Nat) (hi : i < 32) :
    (fieldAt v lo)[i] = (decide (lo ≤ i) && v.getLsbD (i - lo)) := by
  rw [← BitVec.getLsbD_eq_getElem]; exact getLsbD_fieldAt v lo i hi

/-- What `decode` answers on a word whose opcode and fields name `i`, with its reserved bits clear. -/
theorem decode_of_fields {w : Word} {i : Instr} (hf : fieldsOf w = some i) (hr : w &&& reservedMask (formatOf i) = 0) :
    decode w = .ok i := by simp [decode, hf, hr]

/-- What a decoded word's opcode, fields and reserved bits are. -/
theorem fields_of_decode {w : Word} {i : Instr} (h : decode w = .ok i) :
    fieldsOf w = some i ∧ w &&& reservedMask (formatOf i) = 0 := by
  unfold decode at h
  split at h
  · cases h
  · rename_i j hj
    split at h
    · cases h; exact ⟨hj, ‹_›⟩
    · cases h

end Sys2Proof
end

