-- ==== Sys2Proof/Laws/Memory.lean ====
section
/-! SUPPORT. The laws of the data memory: what a read gives after each write, and that every operation keeps the canonical
form. -/

namespace Sys2Proof.Machine

/-! ## One word -/

theorem lookupCell_putCell (a b : Nat) (v : Word) (cs : List (Nat × Word)) :
    lookupCell b (putCell a v cs) = if b = a then some v else lookupCell b cs := by
  induction cs with
  | nil => simp [putCell, lookupCell]
  | cons c cs ih =>
    obtain ⟨k, w⟩ := c
    simp only [putCell]
    split
    · simp only [lookupCell]
    · split
      · subst_vars
        simp only [lookupCell]
        split <;> rfl
      · simp only [lookupCell, ih]
        split
        · subst_vars; rw [if_neg (by omega)]
        · rfl

@[simp] theorem get_put_same (m : Memory) (a : Nat) (v : Word) : (m.put a v).get a = some v := by
  simp [Memory.get, Memory.put, lookupCell_putCell]

theorem get_put_other (m : Memory) {a b : Nat} (v : Word) (h : b ≠ a) : (m.put a v).get b = m.get b := by
  simp [Memory.get, Memory.put, lookupCell_putCell, h]

theorem lookupCell_none_iff (a : Nat) (cs : List (Nat × Word)) : lookupCell a cs = none ↔ ∀ p ∈ cs, p.1 ≠ a := by
  induction cs with
  | nil => simp [lookupCell]
  | cons c cs ih =>
    obtain ⟨k, w⟩ := c
    simp only [lookupCell, List.mem_cons, forall_eq_or_imp]
    split
    · subst_vars; simp
    · rw [ih]; exact ⟨fun h => ⟨fun e => by omega, h⟩, fun h => h.2⟩

@[simp] theorem put_top (m : Memory) (a : Nat) (v : Word) : (m.put a v).top = m.top := rfl

/-! ## Sequences of words -/

@[simp] theorem writeWords_top (m : Memory) (a : Nat) (vs : List Word) : (m.writeWords a vs).top = m.top := by
  induction vs generalizing m a with
  | nil => rfl
  | cons v vs ih => simp [Memory.writeWords, ih]

theorem get_writeWords (m : Memory) (a b : Nat) (vs : List Word) :
    (m.writeWords a vs).get b = if a ≤ b ∧ b < a + vs.length then vs[b - a]? else m.get b := by
  induction vs generalizing m a with
  | nil => simp [Memory.writeWords]
  | cons v vs ih =>
    rw [Memory.writeWords, ih]
    by_cases h1 : a + 1 ≤ b ∧ b < a + 1 + vs.length
    · rw [if_pos h1, if_pos (by simp; omega)]
      obtain ⟨k, rfl⟩ : ∃ k, b = a + 1 + k := ⟨b - (a + 1), by omega⟩
      rw [show a + 1 + k - (a + 1) = k by omega, show a + 1 + k - a = k + 1 by omega]; simp
    · rw [if_neg h1]
      by_cases h2 : b = a
      · subst h2; rw [if_pos (by simp)]; simp
      · rw [get_put_other _ _ h2, if_neg (by simp; omega)]

/-- A read of n words succeeds with exactly the words that the memory holds there. -/
theorem readWords_ok_iff (m : Memory) (a n : Nat) (vs : List Word) :
    m.readWords a n = .ok vs ↔ vs.length = n ∧ ∀ k, (h : k < vs.length) → m.get (a + k) = some vs[k] := by
  induction n generalizing a vs with
  | zero =>
    simp only [Memory.readWords, Except.ok.injEq]
    constructor
    · rintro rfl; simp
    · rintro ⟨h, -⟩; exact (List.eq_nil_of_length_eq_zero h).symm
  | succ n ih =>
    simp only [Memory.readWords]
    split
    · rename_i hn
      constructor
      · intro h; cases h
      · rintro ⟨h, hv⟩
        have := hv 0 (by omega)
        simp [hn] at this
    · rename_i v hn
      split
      · rename_i b hb
        constructor
        · intro h; cases h
        · rintro ⟨h, hv⟩
          cases vs with
          | nil => simp at h
          | cons w ws =>
            have := (ih (a + 1) ws).2 ⟨by simpa using h, fun k hk => by
              have := hv (k + 1) (by simpa using hk)
              rwa [show a + (k + 1) = a + 1 + k by omega, List.getElem_cons_succ] at this⟩
            rw [hb] at this; cases this
      · rename_i ws hws
        have hrec := (ih (a + 1) ws).1 hws
        constructor
        · rintro h
          cases h
          refine ⟨by simp [hrec.1], fun k hk => ?_⟩
          cases k with
          | zero => simpa using hn
          | succ k =>
            have := hrec.2 k (by simpa using hk)
            rwa [show a + (k + 1) = a + 1 + k by omega, List.getElem_cons_succ]
        · rintro ⟨h, hv⟩
          cases vs with
          | nil => simp at h
          | cons w us =>
            have h0 := hv 0 (by simp)
            simp [hn] at h0
            have := (ih (a + 1) us).2 ⟨by simpa using h, fun k hk => by
              have := hv (k + 1) (by simpa using hk)
              rwa [show a + (k + 1) = a + 1 + k by omega, List.getElem_cons_succ] at this⟩
            rw [hws] at this; cases this; rw [h0]

/-- A read that fails names a word of the range that holds no value. -/
theorem readWords_error (m : Memory) (a n b : Nat) (h : m.readWords a n = .error b) :
    a ≤ b ∧ b < a + n ∧ m.get b = none := by
  induction n generalizing a with
  | zero => cases h
  | succ n ih =>
    simp only [Memory.readWords] at h
    split at h
    · cases h; rename_i hn; exact ⟨by omega, by omega, hn⟩
    · split at h
      · cases h; rename_i hb; have := ih (a + 1) hb; exact ⟨by omega, by omega, this.2.2⟩
      · cases h

/-! ## Forgetting a region -/

theorem get_forget (m : Memory) (g : Region) (a : Nat) :
    (m.forget g).get a = if g.holds a = true then none else m.get a := by
  simp only [Memory.get, Memory.forget]
  induction m.cells with
  | nil => simp [lookupCell]
  | cons c cs ih =>
    obtain ⟨k, w⟩ := c
    by_cases hk : g.holds k = true
    · rw [List.filter_cons_of_neg (by simpa using hk), ih]
      simp only [lookupCell]
      split
      · rfl
      · split
        · subst_vars; contradiction
        · rfl
    · rw [List.filter_cons_of_pos (by simpa using hk)]
      simp only [lookupCell]
      split
      · subst_vars; rw [if_neg hk]
      · exact ih

@[simp] theorem forget_top (m : Memory) (g : Region) : (m.forget g).top = m.top := rfl

/-! ## The canonical form -/

theorem mem_putCell {a : Nat} {v : Word} {cs : List (Nat × Word)} {p : Nat × Word} (h : p ∈ putCell a v cs) :
    p = (a, v) ∨ p ∈ cs := by
  induction cs with
  | nil => simpa [putCell] using h
  | cons c cs ih =>
    obtain ⟨k, w⟩ := c
    simp only [putCell] at h
    split at h
    · simpa using h
    · split at h
      · rcases List.mem_cons.1 h with h | h
        · exact .inl h
        · exact .inr (List.mem_cons_of_mem _ h)
      · rcases List.mem_cons.1 h with h | h
        · exact .inr (h ▸ List.mem_cons_self)
        · exact (ih h).imp_right (List.mem_cons_of_mem _)

theorem pairwise_putCell {a : Nat} {v : Word} {cs : List (Nat × Word)}
    (h : cs.Pairwise (fun p q => p.1 < q.1)) : (putCell a v cs).Pairwise (fun p q => p.1 < q.1) := by
  induction cs with
  | nil => simp [putCell]
  | cons c cs ih =>
    obtain ⟨k, w⟩ := c
    obtain ⟨hk, hcs⟩ := List.pairwise_cons.1 h
    simp only [putCell]
    split
    · refine List.pairwise_cons.2 ⟨fun q hq => ?_, h⟩
      rcases List.mem_cons.1 hq with rfl | hq
      · assumption
      · have := hk q hq; simp at this ⊢; omega
    · split
      · subst_vars; exact List.pairwise_cons.2 ⟨hk, hcs⟩
      · refine List.pairwise_cons.2 ⟨fun q hq => ?_, ih hcs⟩
        rcases mem_putCell hq with rfl | hq
        · simp; omega
        · exact hk q hq

/-- A write of an existing word keeps the canonical form. -/
theorem put_wf {m : Memory} {a : Nat} (v : Word) (h : m.wf) (ha : a < m.words) : (m.put a v).wf := by
  refine ⟨pairwise_putCell h.1, fun p hp => ?_⟩
  rcases mem_putCell hp with rfl | hp
  · exact ha
  · exact h.2 p hp

/-- A write of existing words keeps the canonical form. -/
theorem writeWords_wf {m : Memory} {a : Nat} {vs : List Word} (h : m.wf) (ha : vs = [] ∨ a + vs.length ≤ m.words) :
    (m.writeWords a vs).wf := by
  induction vs generalizing m a with
  | nil => exact h
  | cons v vs ih =>
    have ha' : a + (vs.length + 1) ≤ m.words := by simpa using ha
    refine ih (put_wf v h (by omega)) (.inr ?_)
    have : (m.put a v).words = m.words := rfl
    omega

/-- Forgetting a region keeps the canonical form. -/
theorem forget_wf {m : Memory} (g : Region) (h : m.wf) : (m.forget g).wf :=
  ⟨h.1.filter _, fun p hp => h.2 p (List.mem_of_mem_filter hp)⟩

/-- The memory right after reset is in its canonical form. -/
theorem reset_mem_wf : State.reset.mem.wf := ⟨List.Pairwise.nil, nofun⟩

/-! ## Regions -/

theorem holds_iff (g : Region) (a : Nat) : g.holds a = true ↔ g.addr ≤ a ∧ a < g.addr + g.len := by
  simp [Region.holds]

theorem inRange_iff (n : Nat) (g : Region) : g.inRange n = true ↔ (g.len ≠ 0 → g.addr + g.len ≤ n) := by
  simp [Region.inRange]; omega

/-- R76's overlap is the sharing of an address. -/
theorem overlaps_iff (g h : Region) : g.overlaps h = true ↔ ∃ a, g.holds a = true ∧ h.holds a = true := by
  simp only [holds_iff, Region.overlaps, Bool.and_eq_true, decide_eq_true_eq]
  constructor
  · intro hh; exact ⟨max g.addr h.addr, by omega⟩
  · rintro ⟨a, ha⟩; omega

end Sys2Proof.Machine
end

