-- ==== Sys2Proof/Laws/Checks.lean ====
section
/-! SUPPORT. What the shared operations of the commands can do: the checks in order, and the reading of the inputs. -/

namespace Sys2Proof.Machine

@[simp] theorem firstError_nil : firstError [] = none := rfl

@[simp] theorem firstError_cons (b : Bool) (e : ErrCode) (cs : List (Bool × ErrCode)) :
    firstError ((b, e) :: cs) = if b = true then some e else firstError cs := rfl

theorem guarded_of_none {cs : List (Bool × ErrCode)} (s : State) (k : Answer) (h : firstError cs = none) :
    guarded cs s k = k := by simp [guarded, h]

theorem guarded_of_some {cs : List (Bool × ErrCode)} {e : ErrCode} (s : State) (k : Answer) (h : firstError cs = some e) :
    guarded cs s k = .next (s.raise e) := by simp [guarded, h]

/-- A checked command that answers a next state either raised its first error, and did nothing else, or passed every check
and had its effect. -/
theorem guarded_next {cs : List (Bool × ErrCode)} {s t : State} {k : Answer} (h : guarded cs s k = .next t) :
    (∃ e, firstError cs = some e ∧ t = s.raise e) ∨ (firstError cs = none ∧ k = .next t) := by
  unfold guarded at h
  split at h
  · rename_i e he; exact .inl ⟨e, he, by simpa using h.symm⟩
  · rename_i he; exact .inr ⟨he, h⟩

/-- A fault of a checked command is a fault of its effect. -/
theorem guarded_fault {cs : List (Bool × ErrCode)} {s : State} {k : Answer} {r : Fault} (h : guarded cs s k = .fault r) :
    firstError cs = none ∧ k = .fault r := by
  unfold guarded at h
  split at h
  · cases h
  · rename_i he; exact ⟨he, h⟩

/-- A refusal of a checked command is a refusal of its effect. -/
theorem guarded_refused {cs : List (Bool × ErrCode)} {s : State} {k : Answer} {r : Refusal}
    (h : guarded cs s k = .refused r) : firstError cs = none ∧ k = .refused r := by
  unfold guarded at h
  split at h
  · cases h
  · rename_i he; exact ⟨he, h⟩

/-- MemRead of a region gives exactly the words that the memory holds there. -/
theorem readRegion_ok_iff (m : Memory) (g : Region) (vs : List Word) :
    m.readRegion g = .ok vs ↔ vs.length = g.len ∧ ∀ k, (h : k < vs.length) → m.get (g.addr + k) = some vs[k] :=
  readWords_ok_iff m g.addr g.len vs

theorem readRegion_error {m : Memory} {g : Region} {b : Nat} (h : m.readRegion g = .error b) :
    g.holds b = true ∧ m.get b = none := by
  have := readWords_error m g.addr g.len b h
  exact ⟨(holds_iff g b).2 ⟨this.1, this.2.1⟩, this.2.2⟩

/-- The inputs of a whole operation are read exactly when all three regions are. -/
theorem readInputs_ok_iff (s : State) (h p t : List Word) :
    readInputs s = .ok (h, p, t) ↔ s.mem.readRegion s.headerRegion = .ok h ∧
      s.mem.readRegion s.payloadRegion = .ok p ∧ s.mem.readRegion s.trailerRegion = .ok t := by
  unfold readInputs
  split <;> rename_i h1
  · simp [h1]
  · split <;> rename_i h2
    · simp [h2]
    · split <;> rename_i h3 <;> simp [h1, h2, h3]

/-- A read of the inputs that fails names a word of an input region that holds no value. -/
theorem readInputs_error {s : State} {b : Nat} (h : readInputs s = .error b) :
    s.mem.get b = none ∧
      (s.headerRegion.holds b = true ∨ s.payloadRegion.holds b = true ∨ s.trailerRegion.holds b = true) := by
  unfold readInputs at h
  split at h <;> rename_i h1
  · cases h; have := readRegion_error h1; exact ⟨this.2, .inl this.1⟩
  · split at h <;> rename_i h2
    · cases h; have := readRegion_error h2; exact ⟨this.2, .inr (.inl this.1)⟩
    · split at h <;> rename_i h3
      · cases h; have := readRegion_error h3; exact ⟨this.2, .inr (.inr this.1)⟩
      · cases h

/-- What a whole operation past its checks can do. -/
theorem onInputs_cases (s : State) (k : List Word → List Word → List Word → State) :
    (∃ h p t, readInputs s = .ok (h, p, t) ∧ onInputs s k = .next (k h p t)) ∨
      (∃ b, readInputs s = .error b ∧ onInputs s k = .fault (.unwrittenWord b)) := by
  unfold onInputs
  cases hr : readInputs s with
  | error b => exact .inr ⟨b, rfl, rfl⟩
  | ok v => obtain ⟨h, p, t⟩ := v; exact .inl ⟨h, p, t, rfl, rfl⟩

theorem onInputs_of_ok {s : State} {h p t : List Word} (k : List Word → List Word → List Word → State)
    (hr : readInputs s = .ok (h, p, t)) : onInputs s k = .next (k h p t) := by simp [onInputs, hr]

theorem onInputs_of_error {s : State} {b : Nat} (k : List Word → List Word → List Word → State)
    (hr : readInputs s = .error b) : onInputs s k = .fault (.unwrittenWord b) := by simp [onInputs, hr]

end Sys2Proof.Machine
end

