-- ==== Sys2Proof/Laws/Commands.lean ====
section
/-! SUPPORT. What each command can do, once for each: a next state of a checked command is the state with an error raised, or
the state with the command's effect. -/

namespace Sys2Proof.Machine

/-- The checks that a command passed did not apply. -/
theorem applies_of_firstError_none {cs : List (Bool × ErrCode)} (h : firstError cs = none) : ∀ p ∈ cs, p.1 = false := by
  induction cs with
  | nil => intro p hp; cases hp
  | cons c cs ih =>
    obtain ⟨b, e⟩ := c
    cases b
    · simp only [firstError_cons, Bool.false_eq_true, if_false] at h
      intro p hp
      rcases List.mem_cons.1 hp with rfl | hp
      · rfl
      · exact ih h p hp
    · simp at h

/-- A checked command with a plain effect always has a next state: one of two. -/
theorem guarded_next_cases (cs : List (Bool × ErrCode)) (s u : State) :
    (∃ e, firstError cs = some e ∧ guarded cs s (.next u) = .next (s.raise e)) ∨
      (firstError cs = none ∧ guarded cs s (.next u) = .next u) := by
  cases h : firstError cs with
  | none => exact .inr ⟨rfl, guarded_of_none _ _ h⟩
  | some e => exact .inl ⟨e, rfl, guarded_of_some _ _ h⟩

theorem execPermH_next {s t : State} (h : execPermH s = .next t) :
    (∃ e, t = s.raise e) ∨ t = { s with res := mixH s.opa s.opb } :=
  (guarded_next h).imp (fun ⟨e, _, he⟩ => ⟨e, he⟩) fun hk => (Host.Outcome.next.inj hk.2).symm

theorem execPermRotr_next {r : BitVec 5} {s t : State} (h : execPermRotr r s = .next t) :
    (∃ e, t = s.raise e) ∨ t = { s with res := rotr s.opa r.toNat } :=
  (guarded_next h).imp (fun ⟨e, _, he⟩ => ⟨e, he⟩) fun hk => (Host.Outcome.next.inj hk.2).symm

theorem execPermG_next {a b c d : BitVec 4} {s t : State} (h : execPermG a b c d s = .next t) :
    (∃ e, t = s.raise e) ∨ t = { s with st := quarterG s.st a.toFin b.toFin c.toFin d.toFin } :=
  (guarded_next h).imp (fun ⟨e, _, he⟩ => ⟨e, he⟩) fun hk => (Host.Outcome.next.inj hk.2).symm

theorem execPermF_next {nr : BitVec 6} {s t : State} (h : execPermF nr s = .next t) :
    (∃ e, t = s.raise e) ∨ t = { s with st := permuteF (roundsOf nr s) s.st } :=
  (guarded_next h).imp (fun ⟨e, _, he⟩ => ⟨e, he⟩) fun hk => (Host.Outcome.next.inj hk.2).symm

theorem execStateInit_next {s t : State} (h : execStateInit s = .next t) :
    (∃ e, t = s.raise e) ∨ t = { s with st := initState s.key s.nonce s.cfg, opOpen := true } :=
  (guarded_next h).imp (fun ⟨e, _, he⟩ => ⟨e, he⟩) fun hk => (Host.Outcome.next.inj hk.2).symm

theorem execAbsorbBlk_next {g : BitVec 4} {d : BitVec 2} {s t : State} (h : execAbsorbBlk g d s = .next t) :
    (∃ e, t = s.raise e) ∨
      t = { s with st := absorbBlock s.st (operandBlock s.blk g.toNat) (domOf d) s.cfg.rounds } :=
  (guarded_next h).imp (fun ⟨e, _, he⟩ => ⟨e, he⟩) fun hk => (Host.Outcome.next.inj hk.2).symm

theorem execEncBlk_next {g : BitVec 4} {d : BitVec 2} {s t : State} (h : execEncBlk g d s = .next t) :
    (∃ e, t = s.raise e) ∨
      t = { s with
        st := (encBlock s.st (operandBlock s.blk g.toNat) (domOf d) s.cfg.rounds).1
        blk := windowOf g.toNat (encBlock s.st (operandBlock s.blk g.toNat) (domOf d) s.cfg.rounds).2 } :=
  (guarded_next h).imp (fun ⟨e, _, he⟩ => ⟨e, he⟩) fun hk => (Host.Outcome.next.inj hk.2).symm

theorem execDecBlk_next {g : BitVec 4} {d : BitVec 2} {s t : State} (h : execDecBlk g d s = .next t) :
    (∃ e, t = s.raise e) ∨
      t = { s with
        st := (decBlock s.st (operandBlock s.blk g.toNat) g.toNat (domOf d) s.cfg.rounds).1
        blk := windowOf g.toNat (decBlock s.st (operandBlock s.blk g.toNat) g.toNat (domOf d) s.cfg.rounds).2 } :=
  (guarded_next h).imp (fun ⟨e, _, he⟩ => ⟨e, he⟩) fun hk => (Host.Outcome.next.inj hk.2).symm

theorem execFinalTag_next {s t : State} (h : execFinalTag s = .next t) :
    (∃ e, t = s.raise e) ∨
      t = { s with
        st := finalize s.st s.cfg.rounds
        tagOut := windowOf s.cfg.tagWords (tagOf (finalize s.st s.cfg.rounds) s.cfg)
        opOpen := false } :=
  (guarded_next h).imp (fun ⟨e, _, he⟩ => ⟨e, he⟩) fun hk => (Host.Outcome.next.inj hk.2).symm

theorem execTagCompare_next {s t : State} (h : execTagCompare s = .next t) :
    (∃ e, t = s.raise e) ∨
      t = { s with result := verdictOf (ctEq s.tagOut.toList s.tagIn.toList s.cfg.tagWords) } :=
  (guarded_next h).imp (fun ⟨e, _, he⟩ => ⟨e, he⟩) fun hk => (Host.Outcome.next.inj hk.2).symm

theorem execConfig_next {ro ts : BitVec 8} {s t : State} (h : execConfig ro ts s = .next t) :
    (∃ e, t = s.raise e) ∨ t = configEffect s ro ts :=
  (guarded_next h).imp (fun ⟨e, _, he⟩ => ⟨e, he⟩) fun hk => (Host.Outcome.next.inj hk.2).symm

/-- A next state of ENCRYPT: an error, or its effect on the inputs read. -/
theorem execEncrypt_next {s t : State} (h : execEncrypt s = .next t) :
    (∃ e, t = s.raise e) ∨
      (firstError (wholeChecks s) = none ∧
        ∃ hd p tr, readInputs s = .ok (hd, p, tr) ∧ t = encryptEffect s hd p tr) := by
  rcases guarded_next h with ⟨e, _, he⟩ | ⟨hn, hk⟩
  · exact .inl ⟨e, he⟩
  · rcases onInputs_cases s (encryptEffect s) with ⟨hd, p, tr, h1, h2⟩ | ⟨b, _, h2⟩
    · exact .inr ⟨hn, hd, p, tr, h1, (Host.Outcome.next.inj (h2.symm.trans hk)).symm⟩
    · rw [h2] at hk; cases hk

/-- A next state of DECRYPT: an error, or its effect on the inputs read. -/
theorem execDecrypt_next {s t : State} (h : execDecrypt s = .next t) :
    (∃ e, t = s.raise e) ∨
      (firstError (wholeChecks s) = none ∧
        ∃ hd c tr, readInputs s = .ok (hd, c, tr) ∧ t = decryptEffect s hd c tr) := by
  rcases guarded_next h with ⟨e, _, he⟩ | ⟨hn, hk⟩
  · exact .inl ⟨e, he⟩
  · rcases onInputs_cases s (decryptEffect s) with ⟨hd, p, tr, h1, h2⟩ | ⟨b, _, h2⟩
    · exact .inr ⟨hn, hd, p, tr, h1, (Host.Outcome.next.inj (h2.symm.trans hk)).symm⟩
    · rw [h2] at hk; cases hk

/-- A fault of ENCRYPT or DECRYPT comes from the reading of its inputs, after every check. -/
theorem wholeFault {s : State} {k : List Word → List Word → List Word → State} {r : Fault}
    (h : guarded (wholeChecks s) s (onInputs s k) = .fault r) :
    firstError (wholeChecks s) = none ∧ ∃ b, readInputs s = .error b ∧ r = .unwrittenWord b := by
  obtain ⟨hn, hk⟩ := guarded_fault h
  rcases onInputs_cases s k with ⟨hd, p, tr, _, h2⟩ | ⟨b, h1, h2⟩
  · rw [h2] at hk; cases hk
  · rw [h2] at hk; cases hk; exact ⟨hn, b, h1, rfl⟩

end Sys2Proof.Machine
end

