-- ==== Sys2Proof/Laws/PerInstr.lean ====
section
/-! SUPPORT. Facts about every command as syntax, one lemma per constructor of Instr. -/

namespace Sys2Proof.Laws

/-- The OPC column of R111's table. -/
def opcodeNumber (i : Instr) : BitVec 8 :=
  match i with
  | .nop => 0x00
  | .config _ _ => 0x01
  | .encrypt => 0x02
  | .decrypt => 0x03
  | .zeroize => 0x04
  | .permH => 0x10
  | .permRotr _ => 0x11
  | .permG _ _ _ _ => 0x12
  | .permF _ => 0x13
  | .stateInit => 0x14
  | .absorbBlk _ _ => 0x15
  | .encBlk _ _ => 0x16
  | .decBlk _ _ => 0x17
  | .finalTag => 0x18
  | .tagCompare => 0x19

/-- The encoded word carries its row's opcode, and its format's reserved bits are clear (R111, R117). -/
def EncodeRow.Statement (i : Instr) : Prop :=
  opcodeOf (encode i) = opcodeNumber i ∧ encode i &&& reservedMask (formatOf i) = 0

namespace EncodeRow

theorem nop : Statement .nop := ⟨by decide, by decide⟩
theorem encrypt : Statement .encrypt := ⟨by decide, by decide⟩
theorem decrypt : Statement .decrypt := ⟨by decide, by decide⟩
theorem zeroize : Statement .zeroize := ⟨by decide, by decide⟩
theorem permH : Statement .permH := ⟨by decide, by decide⟩
theorem stateInit : Statement .stateInit := ⟨by decide, by decide⟩
theorem finalTag : Statement .finalTag := ⟨by decide, by decide⟩
theorem tagCompare : Statement .tagCompare := ⟨by decide, by decide⟩

theorem config (rounds tagsel : BitVec 8) : Statement (.config rounds tagsel) := by
  constructor <;> apply BitVec.eq_of_getLsbD_eq <;> intro k hk <;> interval_cases k <;>
    simp [opcodeOf, encode, opcodeNumber, formatOf, reservedMask, getElem_fieldAt]

theorem permRotr (ramt : BitVec 5) : Statement (.permRotr ramt) := by
  constructor <;> apply BitVec.eq_of_getLsbD_eq <;> intro k hk <;> interval_cases k <;>
    simp [opcodeOf, encode, opcodeNumber, formatOf, reservedMask, getElem_fieldAt]

theorem permG (qa qb qc qd : BitVec 4) : Statement (.permG qa qb qc qd) := by
  constructor <;> apply BitVec.eq_of_getLsbD_eq <;> intro k hk <;> interval_cases k <;>
    simp [opcodeOf, encode, opcodeNumber, formatOf, reservedMask, getElem_fieldAt]

theorem permF (nr : BitVec 6) : Statement (.permF nr) := by
  constructor <;> apply BitVec.eq_of_getLsbD_eq <;> intro k hk <;> interval_cases k <;>
    simp [opcodeOf, encode, opcodeNumber, formatOf, reservedMask, getElem_fieldAt]

theorem absorbBlk (gcount : BitVec 4) (dsel : BitVec 2) : Statement (.absorbBlk gcount dsel) := by
  constructor <;> apply BitVec.eq_of_getLsbD_eq <;> intro k hk <;> interval_cases k <;>
    simp [opcodeOf, encode, wordB, opcodeNumber, formatOf, reservedMask, getElem_fieldAt]

theorem encBlk (gcount : BitVec 4) (dsel : BitVec 2) : Statement (.encBlk gcount dsel) := by
  constructor <;> apply BitVec.eq_of_getLsbD_eq <;> intro k hk <;> interval_cases k <;>
    simp [opcodeOf, encode, wordB, opcodeNumber, formatOf, reservedMask, getElem_fieldAt]

theorem decBlk (gcount : BitVec 4) (dsel : BitVec 2) : Statement (.decBlk gcount dsel) := by
  constructor <;> apply BitVec.eq_of_getLsbD_eq <;> intro k hk <;> interval_cases k <;>
    simp [opcodeOf, encode, wordB, opcodeNumber, formatOf, reservedMask, getElem_fieldAt]

end EncodeRow

end Sys2Proof.Laws
end

