-- ==== Sys2Proof/Laws/Phases.lean ====
section
/-! SUPPORT. What each word of a block, of the rate and of a window is, so that no proof unfolds how they are built. -/

namespace Sys2Proof.Machine

/-- Only S[15] changes when a constant is XORed into it (R193). -/
theorem xorLast_get (S : PState) (d : Word) (i : Nat) (hi : i < 16) :
    (xorLast S d)[i] = if i = 15 then S[15] ^^^ d else S[i] := by
  simp only [xorLast, Vector.getElem_set]
  by_cases h : i = 15
  · subst h; simp
  · rw [if_neg (fun e => h e.symm), if_neg h]

@[simp] theorem blockAt_get (y : List Word) (k j : Nat) (hj : j < 10) : (blockAt y k)[j] = y.getD (10 * k + j) 0 := by
  simp [blockAt]

@[simp] theorem operandBlock_get (blk : Block) (g j : Nat) (hj : j < 10) :
    (operandBlock blk g)[j] = if j < g then blk[j] else padWord g j := by simp [operandBlock]

@[simp] theorem xorRate_get (S : PState) (y : Block) (i : Nat) (hi : i < 16) :
    (xorRate S y)[i] = if h : i < 10 then S[i] ^^^ y[i] else S[i] := by simp [xorRate]

@[simp] theorem overwriteRate_get (S : PState) (y : Block) (g i : Nat) (hi : i < 16) :
    (overwriteRate S y g)[i] = if h : i < 10 then (if i < g then y[i] else S[i] ^^^ y[i]) else S[i] := by
  simp [overwriteRate]

@[simp] theorem rateOf_get (S : PState) (j : Nat) (hj : j < 10) : (rateOf S)[j] = S[j] := by simp [rateOf]

@[simp] theorem windowOf_get (n : Nat) (ws : List Word) (j : Nat) (hj : j < 10) :
    (windowOf n ws)[j] = if j < n then ws.getD j 0 else 0 := by simp [windowOf]

/-- Each block step of the encrypting phase gives ten words. -/
theorem encBlocks_length (p : List Word) (dom : Word) (R : Nat) (S : PState) (n : Nat) :
    (encBlocks p dom R S n).2.length = 10 * n := by
  induction n with
  | zero => rfl
  | succ n ih => simp [encBlocks, encBlock, ih]; omega

/-- Each word of the tag is a state word (R231). -/
theorem tagOf_getD (S : PState) (c : Params) (i : Nat) (hi : i < 16) :
    (tagOf S c).getD i 0 = if i < c.tagWords then S[i] else 0 := by
  simp only [tagOf, List.getD_eq_getElem?_getD, List.getElem?_take]
  split
  · simp [hi]
  · rfl

end Sys2Proof.Machine
end

