-- ==== Sys2Proof/Laws/State.lean ====
section
/-! SUPPORT. One lemma per field for each named update of the state, so that no proof unfolds a record update. -/

namespace Sys2Proof.Machine

/-! ## `raise` -/

@[simp] theorem raise_irqEn (s : State) (e : ErrCode) : (s.raise e).irqEn = s.irqEn := rfl
@[simp] theorem raise_dbgLock (s : State) (e : ErrCode) : (s.raise e).dbgLock = s.dbgLock := rfl
@[simp] theorem raise_busy (s : State) (e : ErrCode) : (s.raise e).busy = s.busy := rfl
@[simp] theorem raise_done (s : State) (e : ErrCode) : (s.raise e).done = s.done := rfl
@[simp] theorem raise_result (s : State) (e : ErrCode) : (s.raise e).result = s.result := rfl
@[simp] theorem raise_err (s : State) (e : ErrCode) : (s.raise e).err = e := rfl
@[simp] theorem raise_rDefaulted (s : State) (e : ErrCode) : (s.raise e).rDefaulted = s.rDefaulted := rfl
@[simp] theorem raise_aDefaulted (s : State) (e : ErrCode) : (s.raise e).aDefaulted = s.aDefaulted := rfl
@[simp] theorem raise_opOpen (s : State) (e : ErrCode) : (s.raise e).opOpen = s.opOpen := rfl
@[simp] theorem raise_hazard (s : State) (e : ErrCode) : (s.raise e).hazard = s.hazard := rfl
@[simp] theorem raise_cfg (s : State) (e : ErrCode) : (s.raise e).cfg = s.cfg := rfl
@[simp] theorem raise_keyValid (s : State) (e : ErrCode) : (s.raise e).keyValid = s.keyValid := rfl
@[simp] theorem raise_nonceValid (s : State) (e : ErrCode) : (s.raise e).nonceValid = s.nonceValid := rfl
@[simp] theorem raise_outLen (s : State) (e : ErrCode) : (s.raise e).outLen = s.outLen := rfl
@[simp] theorem raise_key (s : State) (e : ErrCode) : (s.raise e).key = s.key := rfl
@[simp] theorem raise_nonce (s : State) (e : ErrCode) : (s.raise e).nonce = s.nonce := rfl
@[simp] theorem raise_hdrAddr (s : State) (e : ErrCode) : (s.raise e).hdrAddr = s.hdrAddr := rfl
@[simp] theorem raise_hdrLen (s : State) (e : ErrCode) : (s.raise e).hdrLen = s.hdrLen := rfl
@[simp] theorem raise_pldAddr (s : State) (e : ErrCode) : (s.raise e).pldAddr = s.pldAddr := rfl
@[simp] theorem raise_pldLen (s : State) (e : ErrCode) : (s.raise e).pldLen = s.pldLen := rfl
@[simp] theorem raise_trlAddr (s : State) (e : ErrCode) : (s.raise e).trlAddr = s.trlAddr := rfl
@[simp] theorem raise_trlLen (s : State) (e : ErrCode) : (s.raise e).trlLen = s.trlLen := rfl
@[simp] theorem raise_outAddr (s : State) (e : ErrCode) : (s.raise e).outAddr = s.outAddr := rfl
@[simp] theorem raise_opa (s : State) (e : ErrCode) : (s.raise e).opa = s.opa := rfl
@[simp] theorem raise_opb (s : State) (e : ErrCode) : (s.raise e).opb = s.opb := rfl
@[simp] theorem raise_res (s : State) (e : ErrCode) : (s.raise e).res = s.res := rfl
@[simp] theorem raise_tagOut (s : State) (e : ErrCode) : (s.raise e).tagOut = s.tagOut := rfl
@[simp] theorem raise_tagIn (s : State) (e : ErrCode) : (s.raise e).tagIn = s.tagIn := rfl
@[simp] theorem raise_blk (s : State) (e : ErrCode) : (s.raise e).blk = s.blk := rfl
@[simp] theorem raise_st (s : State) (e : ErrCode) : (s.raise e).st = s.st := rfl
@[simp] theorem raise_pending (s : State) (e : ErrCode) : (s.raise e).pending = s.pending := rfl
@[simp] theorem raise_mem (s : State) (e : ErrCode) : (s.raise e).mem = s.mem := rfl
@[simp] theorem raise_rdata (s : State) (e : ErrCode) : (s.raise e).rdata = s.rdata := rfl
@[simp] theorem raise_freeIdx (s : State) (e : ErrCode) : (s.raise e).freeIdx = s.freeIdx := rfl
@[simp] theorem raise_hostOps (s : State) (e : ErrCode) : (s.raise e).hostOps = s.hostOps := rfl

/-! ## acceptance (R26) -/

@[simp] theorem accept_irqEn (s : State) (w : Word) : (s.accept w).irqEn = s.irqEn := rfl
@[simp] theorem accept_dbgLock (s : State) (w : Word) : (s.accept w).dbgLock = s.dbgLock := rfl
@[simp] theorem accept_busy (s : State) (w : Word) : (s.accept w).busy = true := rfl
@[simp] theorem accept_done (s : State) (w : Word) : (s.accept w).done = false := rfl
@[simp] theorem accept_result (s : State) (w : Word) : (s.accept w).result = .none := rfl
@[simp] theorem accept_err (s : State) (w : Word) : (s.accept w).err = .noError := rfl
@[simp] theorem accept_rDefaulted (s : State) (w : Word) : (s.accept w).rDefaulted = s.rDefaulted := rfl
@[simp] theorem accept_aDefaulted (s : State) (w : Word) : (s.accept w).aDefaulted = s.aDefaulted := rfl
@[simp] theorem accept_opOpen (s : State) (w : Word) : (s.accept w).opOpen = s.opOpen := rfl
@[simp] theorem accept_hazard (s : State) (w : Word) : (s.accept w).hazard = s.hazard := rfl
@[simp] theorem accept_cfg (s : State) (w : Word) : (s.accept w).cfg = s.cfg := rfl
@[simp] theorem accept_keyValid (s : State) (w : Word) : (s.accept w).keyValid = s.keyValid := rfl
@[simp] theorem accept_nonceValid (s : State) (w : Word) : (s.accept w).nonceValid = s.nonceValid := rfl
@[simp] theorem accept_outLen (s : State) (w : Word) : (s.accept w).outLen = s.outLen := rfl
@[simp] theorem accept_key (s : State) (w : Word) : (s.accept w).key = s.key := rfl
@[simp] theorem accept_nonce (s : State) (w : Word) : (s.accept w).nonce = s.nonce := rfl
@[simp] theorem accept_hdrAddr (s : State) (w : Word) : (s.accept w).hdrAddr = s.hdrAddr := rfl
@[simp] theorem accept_hdrLen (s : State) (w : Word) : (s.accept w).hdrLen = s.hdrLen := rfl
@[simp] theorem accept_pldAddr (s : State) (w : Word) : (s.accept w).pldAddr = s.pldAddr := rfl
@[simp] theorem accept_pldLen (s : State) (w : Word) : (s.accept w).pldLen = s.pldLen := rfl
@[simp] theorem accept_trlAddr (s : State) (w : Word) : (s.accept w).trlAddr = s.trlAddr := rfl
@[simp] theorem accept_trlLen (s : State) (w : Word) : (s.accept w).trlLen = s.trlLen := rfl
@[simp] theorem accept_outAddr (s : State) (w : Word) : (s.accept w).outAddr = s.outAddr := rfl
@[simp] theorem accept_opa (s : State) (w : Word) : (s.accept w).opa = s.opa := rfl
@[simp] theorem accept_opb (s : State) (w : Word) : (s.accept w).opb = s.opb := rfl
@[simp] theorem accept_res (s : State) (w : Word) : (s.accept w).res = s.res := rfl
@[simp] theorem accept_tagOut (s : State) (w : Word) : (s.accept w).tagOut = s.tagOut := rfl
@[simp] theorem accept_tagIn (s : State) (w : Word) : (s.accept w).tagIn = s.tagIn := rfl
@[simp] theorem accept_blk (s : State) (w : Word) : (s.accept w).blk = s.blk := rfl
@[simp] theorem accept_st (s : State) (w : Word) : (s.accept w).st = s.st := rfl
@[simp] theorem accept_pending (s : State) (w : Word) : (s.accept w).pending = w := rfl
@[simp] theorem accept_mem (s : State) (w : Word) : (s.accept w).mem = s.mem := rfl
@[simp] theorem accept_rdata (s : State) (w : Word) : (s.accept w).rdata = s.rdata := rfl
@[simp] theorem accept_freeIdx (s : State) (w : Word) : (s.accept w).freeIdx = s.freeIdx := rfl
@[simp] theorem accept_hostOps (s : State) (w : Word) : (s.accept w).hostOps = s.hostOps := rfl

/-! ## completion (R27) -/

@[simp] theorem finish_irqEn (s : State) : (s.finish).irqEn = s.irqEn := rfl
@[simp] theorem finish_dbgLock (s : State) : (s.finish).dbgLock = s.dbgLock := rfl
@[simp] theorem finish_busy (s : State) : (s.finish).busy = false := rfl
@[simp] theorem finish_done (s : State) : (s.finish).done = true := rfl
@[simp] theorem finish_result (s : State) : (s.finish).result = s.result := rfl
@[simp] theorem finish_err (s : State) : (s.finish).err = s.err := rfl
@[simp] theorem finish_rDefaulted (s : State) : (s.finish).rDefaulted = s.rDefaulted := rfl
@[simp] theorem finish_aDefaulted (s : State) : (s.finish).aDefaulted = s.aDefaulted := rfl
@[simp] theorem finish_opOpen (s : State) : (s.finish).opOpen = s.opOpen := rfl
@[simp] theorem finish_hazard (s : State) : (s.finish).hazard = s.hazard := rfl
@[simp] theorem finish_cfg (s : State) : (s.finish).cfg = s.cfg := rfl
@[simp] theorem finish_keyValid (s : State) : (s.finish).keyValid = s.keyValid := rfl
@[simp] theorem finish_nonceValid (s : State) : (s.finish).nonceValid = s.nonceValid := rfl
@[simp] theorem finish_outLen (s : State) : (s.finish).outLen = s.outLen := rfl
@[simp] theorem finish_key (s : State) : (s.finish).key = s.key := rfl
@[simp] theorem finish_nonce (s : State) : (s.finish).nonce = s.nonce := rfl
@[simp] theorem finish_hdrAddr (s : State) : (s.finish).hdrAddr = s.hdrAddr := rfl
@[simp] theorem finish_hdrLen (s : State) : (s.finish).hdrLen = s.hdrLen := rfl
@[simp] theorem finish_pldAddr (s : State) : (s.finish).pldAddr = s.pldAddr := rfl
@[simp] theorem finish_pldLen (s : State) : (s.finish).pldLen = s.pldLen := rfl
@[simp] theorem finish_trlAddr (s : State) : (s.finish).trlAddr = s.trlAddr := rfl
@[simp] theorem finish_trlLen (s : State) : (s.finish).trlLen = s.trlLen := rfl
@[simp] theorem finish_outAddr (s : State) : (s.finish).outAddr = s.outAddr := rfl
@[simp] theorem finish_opa (s : State) : (s.finish).opa = s.opa := rfl
@[simp] theorem finish_opb (s : State) : (s.finish).opb = s.opb := rfl
@[simp] theorem finish_res (s : State) : (s.finish).res = s.res := rfl
@[simp] theorem finish_tagOut (s : State) : (s.finish).tagOut = s.tagOut := rfl
@[simp] theorem finish_tagIn (s : State) : (s.finish).tagIn = s.tagIn := rfl
@[simp] theorem finish_blk (s : State) : (s.finish).blk = s.blk := rfl
@[simp] theorem finish_st (s : State) : (s.finish).st = s.st := rfl
@[simp] theorem finish_pending (s : State) : (s.finish).pending = s.pending := rfl
@[simp] theorem finish_mem (s : State) : (s.finish).mem = s.mem := rfl
@[simp] theorem finish_rdata (s : State) : (s.finish).rdata = s.rdata := rfl
@[simp] theorem finish_freeIdx (s : State) : (s.finish).freeIdx = s.freeIdx := rfl
@[simp] theorem finish_hostOps (s : State) : (s.finish).hostOps = s.hostOps := rfl

/-! ## the end of a whole operation -/

@[simp] theorem closeWhole_irqEn (s : State) : (s.closeWhole).irqEn = s.irqEn := rfl
@[simp] theorem closeWhole_dbgLock (s : State) : (s.closeWhole).dbgLock = s.dbgLock := rfl
@[simp] theorem closeWhole_busy (s : State) : (s.closeWhole).busy = s.busy := rfl
@[simp] theorem closeWhole_done (s : State) : (s.closeWhole).done = s.done := rfl
@[simp] theorem closeWhole_result (s : State) : (s.closeWhole).result = s.result := rfl
@[simp] theorem closeWhole_err (s : State) : (s.closeWhole).err = s.err := rfl
@[simp] theorem closeWhole_rDefaulted (s : State) : (s.closeWhole).rDefaulted = s.rDefaulted := rfl
@[simp] theorem closeWhole_aDefaulted (s : State) : (s.closeWhole).aDefaulted = s.aDefaulted := rfl
@[simp] theorem closeWhole_opOpen (s : State) : (s.closeWhole).opOpen = false := rfl
@[simp] theorem closeWhole_hazard (s : State) : (s.closeWhole).hazard = s.hazard := rfl
@[simp] theorem closeWhole_cfg (s : State) : (s.closeWhole).cfg = s.cfg := rfl
@[simp] theorem closeWhole_keyValid (s : State) : (s.closeWhole).keyValid = s.keyValid := rfl
@[simp] theorem closeWhole_nonceValid (s : State) : (s.closeWhole).nonceValid = s.nonceValid := rfl
@[simp] theorem closeWhole_outLen (s : State) : (s.closeWhole).outLen = s.outLen := rfl
@[simp] theorem closeWhole_key (s : State) : (s.closeWhole).key = s.key := rfl
@[simp] theorem closeWhole_nonce (s : State) : (s.closeWhole).nonce = s.nonce := rfl
@[simp] theorem closeWhole_hdrAddr (s : State) : (s.closeWhole).hdrAddr = s.hdrAddr := rfl
@[simp] theorem closeWhole_hdrLen (s : State) : (s.closeWhole).hdrLen = s.hdrLen := rfl
@[simp] theorem closeWhole_pldAddr (s : State) : (s.closeWhole).pldAddr = s.pldAddr := rfl
@[simp] theorem closeWhole_pldLen (s : State) : (s.closeWhole).pldLen = s.pldLen := rfl
@[simp] theorem closeWhole_trlAddr (s : State) : (s.closeWhole).trlAddr = s.trlAddr := rfl
@[simp] theorem closeWhole_trlLen (s : State) : (s.closeWhole).trlLen = s.trlLen := rfl
@[simp] theorem closeWhole_outAddr (s : State) : (s.closeWhole).outAddr = s.outAddr := rfl
@[simp] theorem closeWhole_opa (s : State) : (s.closeWhole).opa = s.opa := rfl
@[simp] theorem closeWhole_opb (s : State) : (s.closeWhole).opb = s.opb := rfl
@[simp] theorem closeWhole_res (s : State) : (s.closeWhole).res = s.res := rfl
@[simp] theorem closeWhole_tagOut (s : State) : (s.closeWhole).tagOut = s.tagOut := rfl
@[simp] theorem closeWhole_tagIn (s : State) : (s.closeWhole).tagIn = s.tagIn := rfl
@[simp] theorem closeWhole_blk (s : State) : (s.closeWhole).blk = s.blk := rfl
@[simp] theorem closeWhole_st (s : State) : (s.closeWhole).st = Vector.replicate 16 0 := rfl
@[simp] theorem closeWhole_pending (s : State) : (s.closeWhole).pending = s.pending := rfl
@[simp] theorem closeWhole_mem (s : State) : (s.closeWhole).mem = s.mem := rfl
@[simp] theorem closeWhole_rdata (s : State) : (s.closeWhole).rdata = s.rdata := rfl
@[simp] theorem closeWhole_freeIdx (s : State) : (s.closeWhole).freeIdx = s.freeIdx := rfl
@[simp] theorem closeWhole_hostOps (s : State) : (s.closeWhole).hostOps = s.hostOps := rfl

/-! ## CONFIG's diagnostics -/

@[simp] theorem withDiagnostics_irqEn (s : State) (ro ts : BitVec 8) : (s.withDiagnostics ro ts).irqEn = s.irqEn := rfl
@[simp] theorem withDiagnostics_dbgLock (s : State) (ro ts : BitVec 8) : (s.withDiagnostics ro ts).dbgLock = s.dbgLock := rfl
@[simp] theorem withDiagnostics_busy (s : State) (ro ts : BitVec 8) : (s.withDiagnostics ro ts).busy = s.busy := rfl
@[simp] theorem withDiagnostics_done (s : State) (ro ts : BitVec 8) : (s.withDiagnostics ro ts).done = s.done := rfl
@[simp] theorem withDiagnostics_result (s : State) (ro ts : BitVec 8) : (s.withDiagnostics ro ts).result = s.result := rfl
@[simp] theorem withDiagnostics_err (s : State) (ro ts : BitVec 8) : (s.withDiagnostics ro ts).err = s.err := rfl
@[simp] theorem withDiagnostics_rDefaulted (s : State) (ro ts : BitVec 8) : (s.withDiagnostics ro ts).rDefaulted = (decodeRounds ro).2 := rfl
@[simp] theorem withDiagnostics_aDefaulted (s : State) (ro ts : BitVec 8) : (s.withDiagnostics ro ts).aDefaulted = (decodeTagsel ts).2 := rfl
@[simp] theorem withDiagnostics_opOpen (s : State) (ro ts : BitVec 8) : (s.withDiagnostics ro ts).opOpen = s.opOpen := rfl
@[simp] theorem withDiagnostics_hazard (s : State) (ro ts : BitVec 8) : (s.withDiagnostics ro ts).hazard = s.hazard := rfl
@[simp] theorem withDiagnostics_cfg (s : State) (ro ts : BitVec 8) : (s.withDiagnostics ro ts).cfg = s.cfg := rfl
@[simp] theorem withDiagnostics_keyValid (s : State) (ro ts : BitVec 8) : (s.withDiagnostics ro ts).keyValid = s.keyValid := rfl
@[simp] theorem withDiagnostics_nonceValid (s : State) (ro ts : BitVec 8) : (s.withDiagnostics ro ts).nonceValid = s.nonceValid := rfl
@[simp] theorem withDiagnostics_outLen (s : State) (ro ts : BitVec 8) : (s.withDiagnostics ro ts).outLen = s.outLen := rfl
@[simp] theorem withDiagnostics_key (s : State) (ro ts : BitVec 8) : (s.withDiagnostics ro ts).key = s.key := rfl
@[simp] theorem withDiagnostics_nonce (s : State) (ro ts : BitVec 8) : (s.withDiagnostics ro ts).nonce = s.nonce := rfl
@[simp] theorem withDiagnostics_hdrAddr (s : State) (ro ts : BitVec 8) : (s.withDiagnostics ro ts).hdrAddr = s.hdrAddr := rfl
@[simp] theorem withDiagnostics_hdrLen (s : State) (ro ts : BitVec 8) : (s.withDiagnostics ro ts).hdrLen = s.hdrLen := rfl
@[simp] theorem withDiagnostics_pldAddr (s : State) (ro ts : BitVec 8) : (s.withDiagnostics ro ts).pldAddr = s.pldAddr := rfl
@[simp] theorem withDiagnostics_pldLen (s : State) (ro ts : BitVec 8) : (s.withDiagnostics ro ts).pldLen = s.pldLen := rfl
@[simp] theorem withDiagnostics_trlAddr (s : State) (ro ts : BitVec 8) : (s.withDiagnostics ro ts).trlAddr = s.trlAddr := rfl
@[simp] theorem withDiagnostics_trlLen (s : State) (ro ts : BitVec 8) : (s.withDiagnostics ro ts).trlLen = s.trlLen := rfl
@[simp] theorem withDiagnostics_outAddr (s : State) (ro ts : BitVec 8) : (s.withDiagnostics ro ts).outAddr = s.outAddr := rfl
@[simp] theorem withDiagnostics_opa (s : State) (ro ts : BitVec 8) : (s.withDiagnostics ro ts).opa = s.opa := rfl
@[simp] theorem withDiagnostics_opb (s : State) (ro ts : BitVec 8) : (s.withDiagnostics ro ts).opb = s.opb := rfl
@[simp] theorem withDiagnostics_res (s : State) (ro ts : BitVec 8) : (s.withDiagnostics ro ts).res = s.res := rfl
@[simp] theorem withDiagnostics_tagOut (s : State) (ro ts : BitVec 8) : (s.withDiagnostics ro ts).tagOut = s.tagOut := rfl
@[simp] theorem withDiagnostics_tagIn (s : State) (ro ts : BitVec 8) : (s.withDiagnostics ro ts).tagIn = s.tagIn := rfl
@[simp] theorem withDiagnostics_blk (s : State) (ro ts : BitVec 8) : (s.withDiagnostics ro ts).blk = s.blk := rfl
@[simp] theorem withDiagnostics_st (s : State) (ro ts : BitVec 8) : (s.withDiagnostics ro ts).st = s.st := rfl
@[simp] theorem withDiagnostics_pending (s : State) (ro ts : BitVec 8) : (s.withDiagnostics ro ts).pending = s.pending := rfl
@[simp] theorem withDiagnostics_mem (s : State) (ro ts : BitVec 8) : (s.withDiagnostics ro ts).mem = s.mem := rfl
@[simp] theorem withDiagnostics_rdata (s : State) (ro ts : BitVec 8) : (s.withDiagnostics ro ts).rdata = s.rdata := rfl
@[simp] theorem withDiagnostics_freeIdx (s : State) (ro ts : BitVec 8) : (s.withDiagnostics ro ts).freeIdx = s.freeIdx := rfl
@[simp] theorem withDiagnostics_hostOps (s : State) (ro ts : BitVec 8) : (s.withDiagnostics ro ts).hostOps = s.hostOps := rfl

end Sys2Proof.Machine
end

