-- ==== Sys2Proof/Laws/Step.lean ====
section
/-! SUPPORT. What a step, the engine's turn and each access of the host can do, once for each. -/

namespace Sys2Proof.Machine

theorem step_of_nil {s : State} (h : s.hostOps = []) : step s = engineTurn s := by simp [step, h]

theorem step_of_cons {s : State} {op : HostOp} {rest : List HostOp} (h : s.hostOps = op :: rest) :
    step s = hostAct op { s with hostOps := rest } := by simp [step, h]

/-- At the engine's turn, the host done or waiting, a step is that turn with the host's remaining acts. -/
theorem step_of_engineMoves {s : State} {rest : List HostOp} (h : s.EngineMoves rest) :
    step s = engineTurn { s with hostOps := rest } := by
  rcases h with ⟨h, rfl⟩ | h
  · rw [step_of_nil h, ← h]
  · exact step_of_cons h

theorem engineTurn_of_idle {s : State} (h : s.busy = false) : engineTurn s = .next s := by simp [engineTurn, h]

theorem engineTurn_of_busy {s : State} (h : s.busy = true) : engineTurn s = complete s := by simp [engineTurn, h]

/-- A completion that has a next state is the word's own next state with the completion writes. -/
theorem complete_next {s t : State} (h : complete s = .next t) : ∃ u, runWord s.pending s = .next u ∧ t = u.finish := by
  unfold complete at h
  cases hu : runWord s.pending s with
  | next u => rw [hu] at h; exact ⟨u, rfl, (Host.Outcome.next.inj h).symm⟩
  | fault r => rw [hu] at h; cases h
  | refused r => rw [hu] at h; cases h

/-- A word's next state is that of a raised ILLEGAL_COMMAND, or its command's. -/
theorem runWord_next {w : Word} {s t : State} (h : runWord w s = .next t) :
    t = s.raise .illegalCommand ∨ ∃ i, decode w = .ok i ∧ exec i s = .next t := by
  unfold runWord at h
  cases hd : decode w with
  | error e => rw [hd] at h; exact .inl (Host.Outcome.next.inj h).symm
  | ok i => rw [hd] at h; exact .inr ⟨i, rfl, h⟩

theorem hostRegWrite_next {off : BitVec 12} {size : Nat} {v : Word} {s t : State}
    (h : hostRegWrite off size v s = .next t) :
    legalAccess off size = true ∧ t = if s.busy then busyWrite off s else idleWrite off v s := by
  unfold hostRegWrite at h
  split at h
  · exact ⟨‹_›, (Host.Outcome.next.inj h).symm⟩
  · cases h

theorem hostRegRead_next {off : BitVec 12} {size : Nat} {s t : State} (h : hostRegRead off size s = .next t) :
    legalAccess off size = true ∧ t = if s.busy then busyRead off s else { s with rdata := idleRead off s } := by
  unfold hostRegRead at h
  split at h
  · exact ⟨‹_›, (Host.Outcome.next.inj h).symm⟩
  · cases h

theorem hostMemWrite_next {addr v : Word} {s t : State} (h : hostMemWrite addr v s = .next t) :
    addr.toNat < s.mem.words ∧ writeForbidden s addr.toNat = false ∧ t = { s with mem := s.mem.put addr.toNat v } := by
  unfold hostMemWrite at h
  split at h
  · cases h
  · split at h
    · cases h
    · exact ⟨by omega, by simpa using ‹¬ writeForbidden s addr.toNat = true›, (Host.Outcome.next.inj h).symm⟩

theorem hostMemRead_next {addr : Word} {s t : State} (h : hostMemRead addr s = .next t) :
    addr.toNat < s.mem.words ∧ readForbidden s addr.toNat = false ∧
      ∃ v, s.mem.get addr.toNat = some v ∧ t = { s with rdata := v } := by
  unfold hostMemRead at h
  split at h
  · cases h
  · split at h
    · cases h
    · split at h
      · cases h
      · exact ⟨by omega, by simpa using ‹¬ readForbidden s addr.toNat = true›, _, ‹_›, (Host.Outcome.next.inj h).symm⟩

/-- While BUSY = 1 a host write sets HAZARD, or at a reserved offset changes nothing. -/
theorem busyWrite_cases (off : BitVec 12) (s : State) :
    ((∃ r, regAt off.toNat = some r) ∧ busyWrite off s = { s with hazard := true }) ∨
      (regAt off.toNat = none ∧ busyWrite off s = s) := by
  unfold busyWrite
  split
  · exact .inr ⟨‹_›, rfl⟩
  · exact .inl ⟨⟨_, ‹_›⟩, rfl⟩

/-- While BUSY = 1 a host read changes what the host sees and the count of free values, and nothing else; at a reserved
offset the host sees 0. -/
theorem busyRead_cases (off : BitVec 12) (s : State) :
    (∃ v n, busyRead off s = { s with rdata := v, freeIdx := n }) ∧
      (regAt off.toNat = none → busyRead off s = { s with rdata := 0 }) := by
  unfold busyRead
  split
  · exact ⟨⟨_, s.freeIdx, rfl⟩, fun _ => rfl⟩
  · exact ⟨⟨_, s.freeIdx, rfl⟩, fun h => by simp_all⟩
  · exact ⟨⟨_, s.freeIdx, rfl⟩, fun h => by simp_all⟩
  · exact ⟨⟨_, _, rfl⟩, fun h => by simp_all⟩

/-- The four bytes of a word, put together again. -/
theorem bytes_append (v : Word) :
    v.extractLsb' 24 8 ++ v.extractLsb' 16 8 ++ v.extractLsb' 8 8 ++ v.extractLsb' 0 8 = v := by
  apply BitVec.eq_of_getElem_eq
  intro i hi
  simp only [BitVec.getElem_append, BitVec.getElem_extractLsb']
  interval_cases i <;> simp

/-- BUS_ENDIAN changes no value (R72): what the lanes carry is what was put on them, in either order. -/
@[simp] theorem busValue_busLanes (e : ByteOrder) (v : Word) : busValue e (busLanes e v) = v := by
  cases e <;> exact bytes_append v

@[simp] theorem busTransfer_eq (v : Word) : busTransfer v = v := busValue_busLanes _ v

/-- While BUSY = 0 a host write is ignored or stores in one register. -/
theorem idleWrite_cases (off : BitVec 12) (v : Word) (s : State) :
    idleWrite off v s = s ∨
      ∃ r, regAt off.toNat = some r ∧ (r.isDebug && s.dbgLock) = false ∧ idleWrite off v s = regStore r v s := by
  unfold idleWrite
  split
  · exact .inl rfl
  · rename_i r hr
    by_cases h : (r.isDebug && s.dbgLock) = true
    · exact .inl (if_pos h)
    · exact .inr ⟨r, hr, by simpa using h, if_neg h⟩

/-- What a reset does to data memory: nothing, or the forgetting of the output region of an abandoned whole operation. -/
theorem memAfterReset_cases (s : State) :
    (s.wholeInFlight = false ∧ memAfterReset s = s.mem) ∨
      (s.wholeInFlight = true ∧ memAfterReset s = s.mem.forget s.outputRegion) := by
  unfold memAfterReset
  cases s.wholeInFlight <;> simp

/-- A reset keeps the canonical form of data memory. -/
theorem memAfterReset_wf {s : State} (h : s.mem.wf) : (memAfterReset s).wf := by
  rcases memAfterReset_cases s with ⟨_, e⟩ | ⟨_, e⟩ <;> rw [e]
  · exact h
  · exact forget_wf _ h

end Sys2Proof.Machine
end

