-- ==== Sys2Proof/Tests/Slice0.lean ====
section
/-! SUPPORT. The tests: ill-formed terms refused, the spec's words decoded, one step of each command on the vectors of
spec/95_test_vectors.md, and for every statement with hypotheses a theorem that shows them met. Every expected value is
the spec's own. -/

namespace Sys2Proof.Tests

open Sys2Proof Sys2Proof.Machine

/-! ## Well-formed commands (R115, R116) -/

theorem test_wf_rotate_by_zero_refused : (Instr.permRotr 0).wellFormed = false := by decide
theorem test_wf_rotate_bounds_legal : (Instr.permRotr 1).wellFormed ∧ (Instr.permRotr 31).wellFormed := by decide
theorem test_wf_absorb_11_refused : (Instr.absorbBlk 11 1).wellFormed = false := by decide
theorem test_wf_enc_11_refused : (Instr.encBlk 11 3).wellFormed = false := by decide
theorem test_wf_dec_15_refused : (Instr.decBlk 15 3).wellFormed = false := by decide
theorem test_wf_count_bounds_legal :
    (Instr.absorbBlk 0 0).wellFormed ∧ (Instr.encBlk 10 0).wellFormed ∧ (Instr.decBlk 10 3).wellFormed := by decide

/-! ## Words written out from R100-R111 and R117, bit 31 first -/

/-- Format N: 24 reserved bits, then the opcode. -/
theorem test_decode_format_n :
    decode 0b000000000000000000000000_00000000 = .ok .nop ∧
    decode 0b000000000000000000000000_00000010 = .ok .encrypt ∧
    decode 0b000000000000000000000000_00000011 = .ok .decrypt ∧
    decode 0b000000000000000000000000_00000100 = .ok .zeroize ∧
    decode 0b000000000000000000000000_00010000 = .ok .permH ∧
    decode 0b000000000000000000000000_00010100 = .ok .stateInit ∧
    decode 0b000000000000000000000000_00011000 = .ok .finalTag ∧
    decode 0b000000000000000000000000_00011001 = .ok .tagCompare := by decide

/-- Format C: 8 reserved bits, TAGSEL = 10, ROUNDS = 63, the opcode. -/
theorem test_decode_config : decode 0b00000000_00001010_00111111_00000001 = .ok (.config 63 10) := by decide

/-- Format R: 19 reserved bits, RAMT = 8, the opcode. -/
theorem test_decode_perm_rotr : decode 0b0000000000000000000_01000_00010001 = .ok (.permRotr 8) := by decide

/-- Format Q: 8 reserved bits, QD = 12, QC = 8, QB = 4, QA = 0, the opcode. -/
theorem test_decode_perm_g : decode 0b00000000_1100_1000_0100_0000_00010010 = .ok (.permG 0 4 8 12) := by decide

/-- Format P: 18 reserved bits, NR = 63, the opcode. -/
theorem test_decode_perm_f : decode 0b000000000000000000_111111_00010011 = .ok (.permF 63) := by decide

/-- Format B: 18 reserved bits, DSEL, GCOUNT, the opcode. -/
theorem test_decode_blocks :
    decode 0b000000000000000000_10_1010_00010101 = .ok (.absorbBlk 10 2) ∧
    decode 0b000000000000000000_01_0100_00010110 = .ok (.encBlk 4 1) ∧
    decode 0b000000000000000000_11_0100_00010111 = .ok (.decBlk 4 3) := by decide

/-- R113, R114: reserved opcodes at the edges of their ranges, and one reserved bit of each format. -/
theorem test_decode_reserved :
    decode 0x05 = .error .reservedOpcode ∧ decode 0x0F = .error .reservedOpcode ∧
    decode 0x1A = .error .reservedOpcode ∧ decode 0xFF = .error .reservedOpcode ∧
    decode 0x00000100 = .error .reservedBits ∧ decode 0x01000001 = .error .reservedBits ∧
    decode 0x00002111 = .error .reservedBits ∧ decode 0x01000012 = .error .reservedBits ∧
    decode 0x00004013 = .error .reservedBits ∧ decode 0x00004015 = .error .reservedBits := by decide

/-- R117: the words of 95_test_vectors.md. -/
theorem test_encode_words :
    encode (.config 64 11) = 0x000B4001 ∧ encode (.permRotr 8) = 0x00000811 ∧ encode (.permG 0 4 8 12) = 0x00C84012 ∧
    encode (.permF 1) = 0x00000113 ∧ encode (.absorbBlk 2 1) = 0x00001215 ∧ encode (.encBlk 4 3) = 0x00003416 ∧
    encode (.decBlk 4 3) = 0x00003417 := by decide

theorem test_table_word :
    decodeTableWord 32 0x00000811 = some (.permRotr 8) ∧ decodeTableWord 32 0x00000020 = none := by decide

/-! ## Small states -/

/-- After reset, with MEM_WORDS = 4096 (95_test_vectors.md section 7). -/
def afterReset : State := { State.reset with mem := ⟨4095, []⟩ }

/-- Configured with R = 4 and A = 128, the key and nonce of the document's vector written. -/
def ready : State :=
  { afterReset with
    cfg := ⟨4, 128⟩, key := katKey, nonce := katNonce, keyValid := 0b1111#4, nonceValid := 0b11#2 }

/-- S[i] = i. -/
def iota : PState := #v[0, 1, 2, 3, 4, 5, 6, 7, 8, 9, 10, 11, 12, 13, 14, 15]

/-- 95_test_vectors.md 1.2 step 3: the initialized state. -/
def initialized : PState :=
  #v[0x45079318, 0x15859046, 0x2D54327F, 0x05340C5E, 0x25968B63, 0xD63C2815, 0x4E56477B, 0x67296814,
     0x74E8F429, 0x063B7AC4, 0xCE0B7244, 0xF1ED4AAE, 0x7A07FD03, 0x143815BE, 0xC62D6471, 0x79949917]

/-- Step 4: after the header block. -/
def headerDone : PState :=
  #v[0x9F8F35CA, 0xAAFA2A3D, 0x324C1414, 0x028732CB, 0x428AEE2C, 0xC6CB8013, 0xDD7DB211, 0x334C8138,
     0xA204652A, 0x2AD0B71F, 0x693ACC09, 0x22A8BF7A, 0x2E0239D6, 0x31112F7F, 0x8B542A96, 0x009A5230]

/-- Step 5: after the payload block. -/
def payloadDone : PState :=
  #v[0xF6377821, 0x4CAB8D76, 0x4AC9B156, 0x24FC9EC7, 0xE94336E4, 0xEDBFC01F, 0xD3A0B4D9, 0x22FC8EE4,
     0xBA467ECF, 0x01BD9B12, 0x3AE79D9B, 0x65890957, 0x036D0DA5, 0x1E2E70C6, 0xCB06BBF3, 0x024247B5]

/-- The document's tag, in a window. -/
def katWindow : Block := #v[0x7702CA8A, 0xE8BA5210, 0xFD9B73AD, 0xC0443A0D, 0, 0, 0, 0, 0, 0]

/-- The document's ciphertext, in BLK. -/
def katCipherBlock : Block := #v[0x1F8F35CD, 0xCAFA2A38, 0x724C1417, 0x228732CA, 0, 0, 0, 0, 0, 0]

/-- The document's payload, in BLK; the words past it are of no effect. -/
def katPayloadBlock : Block := #v[0x80000007, 0x60000005, 0x40000003, 0x20000001, 0, 0, 0, 0, 0, 0]

/-- Program P1's memory and descriptors. -/
def sending : State :=
  { ready with
    mem := ⟨4095, [(0x100, 0x10000002), (0x101, 0x30000004), (0x110, 0x80000007), (0x111, 0x60000005),
      (0x112, 0x40000003), (0x113, 0x20000001)]⟩
    hdrAddr := 0x100, hdrLen := 2, pldAddr := 0x110, pldLen := 4, outAddr := 0x120 }

/-- Program P3's memory and descriptors, in place. -/
def untagged : State :=
  { ready with
    mem := ⟨4095, [(0x100, 0x10000002), (0x101, 0x30000004), (0x120, 0x1F8F35CD), (0x121, 0xCAFA2A38),
      (0x122, 0x724C1417), (0x123, 0x228732CA)]⟩
    hdrAddr := 0x100, hdrLen := 2, pldAddr := 0x120, pldLen := 4, outAddr := 0x120 }

/-- Program P3's state with the supplied tag. -/
def receiving (tag : Block) : State := { untagged with tagIn := tag }

/-- What `f` reads in the next state; `none` where there is none. -/
def seen {α : Type} (a : Answer) (f : State → α) : Option α :=
  match a with
  | .next t => some (f t)
  | .fault _ => none
  | .refused _ => none

/-! ## One step of each command -/

/-- 2.9 and P4: NOP, and its completion seen in STATUS. -/
theorem test_nop_status : seen (step (afterReset.withFetchWord 32 0)) statusWord = some 0x00000002 := by decide

/-- 2.6: CONFIG 64, 11 falls back twice. -/
theorem test_config_defaults :
    seen (exec (.config 64 11) afterReset) (fun t => (cfgWord t.cfg, t.rDefaulted, t.aDefaulted)) =
      some (0x00800004, true, true) := by decide +kernel

/-- P2: CONFIG while an operation is open. -/
theorem test_config_while_open :
    seen (exec (.config 6 8) { ready with opOpen := true }) (fun t => (t.err, cfgWord t.cfg)) =
      some (.sequenceError, 0x00800004) := by decide +kernel

/-- P1. -/
theorem test_encrypt_p1 :
    seen (exec .encrypt sending) (fun t => (t.mem.get 0x120, t.mem.get 0x123, t.tagOut, t.outLen)) =
      some (some 0x1F8F35CD, some 0x228732CA, katWindow, 4) := by decide +kernel

/-- P5: the range check, then the overlap check, both without reading an unwritten word. -/
theorem test_encrypt_range_then_overlap :
    seen (exec .encrypt { ready with pldAddr := 4094, pldLen := 4 }) State.err = some .rangeError ∧
    seen (exec .encrypt { ready with pldAddr := 0x10, pldLen := 4, outAddr := 0x12 }) State.err =
      some .overlapError := by decide +kernel

/-- P3: in place. -/
theorem test_decrypt_p3 :
    seen (exec .decrypt (receiving katWindow)) (fun t => (t.mem.get 0x120, t.mem.get 0x123, t.result, t.outLen)) =
      some (some 0x80000007, some 0x20000001, .pass, 4) := by decide +kernel

/-- P3: bit 8 of TAG_IN0 flipped. -/
theorem test_decrypt_p3_wrong_tag :
    seen (exec .decrypt (receiving (katWindow.set 0 0x7702CB8A)))
      (fun t => (t.mem.get 0x120, t.result, t.outLen, t.tagOut[0])) =
      some (some 0x1F8F35CD, .fail, 0, 0) := by decide +kernel

/-- P5: ZEROIZE keeps the configuration. -/
theorem test_zeroize :
    seen (exec .zeroize { ready with dbgLock := true, tagIn := katWindow })
      (fun t => (t.keyValid, t.key[0], t.tagIn[0], cfgWord t.cfg)) = some (0, 0, 0, 0x00800004) := by decide +kernel

/-- 2.1, P4. -/
theorem test_perm_h :
    seen (exec .permH { afterReset with opa := 0x12345678, opb := 0x9ABCDEF0 }) State.res = some 0xACE02468 := by decide

/-- P5: an engine-level command in locked mode. -/
theorem test_perm_h_locked : seen (exec .permH { afterReset with dbgLock := true }) State.err = some .locked := by decide

/-- 2.2, P4. -/
theorem test_perm_rotr : seen (exec (.permRotr 8) { afterReset with opa := 0x12345678 }) State.res = some 0x78123456 := by
  decide

/-- P4: a rotate by 0 leaves RES as it is. -/
theorem test_perm_rotr_zero :
    seen (exec (.permRotr 0) { afterReset with opa := 1, res := 0x78123456 }) (fun t => (t.err, t.res)) =
      some (.illegalOperand, 0x78123456) := by decide

/-- 2.3, P4. -/
theorem test_perm_g :
    seen (exec (.permG 0 4 8 12) { afterReset with st := iota }) (fun t => (t.st[0], t.st[4], t.st[8], t.st[12])) =
      some (0x01810004, 0x130A1312, 0x08040989, 0x00040981) := by decide +kernel

/-- R142, 2.3: repeated indices. -/
theorem test_perm_g_aliased :
    seen (exec (.permG 3 3 3 3) { afterReset with st := iota }) (fun t => (t.st[3], t.st[2])) = some (0, 2) ∧
    seen (exec (.permG 1 1 2 2) { afterReset with st := iota }) (fun t => (t.st[1], t.st[2], t.st[0])) =
      some (0x01000200, 0x00000100, 0) := by decide +kernel

/-- 2.4, P4: F1(iota). -/
theorem test_perm_f_one_round :
    seen (exec (.permF 1) { afterReset with st := iota }) State.st =
      some #v[0x59191001, 0x49B78ABC, 0xABBC3C0B, 0xF7052EA4, 0xEEE61AD7, 0xB53A2D4C, 0xF5EF0B45, 0x8E5D0048,
        0x1616A71E, 0x11EEF6FB, 0xD00F59AF, 0x37C15601, 0x0E4AD52B, 0xBE183B86, 0xA51862D5, 0x9DD8C06F] := by
  decide +kernel

/-- P4: NR = 0 needs the configuration. -/
theorem test_perm_f_unconfigured : seen (exec (.permF 0) afterReset) State.err = some .uninitialized := by decide +kernel

/-- 1.2 step 3. -/
theorem test_state_init :
    seen (exec .stateInit ready) (fun t => (t.st, t.opOpen)) = some (initialized, true) := by decide +kernel

/-- 1.2 step 4. -/
theorem test_absorb_blk :
    seen (exec (.absorbBlk 2 1) { ready with st := initialized, blk := #v[0x10000002, 0x30000004, 0, 0, 0, 0, 0, 0, 0, 0] })
      State.st = some headerDone := by decide +kernel

/-- P4: GCOUNT = 11, checked before the configuration. -/
theorem test_absorb_blk_11 : seen (exec (.absorbBlk 11 1) afterReset) State.err = some .illegalOperand := by decide +kernel

/-- 1.2 step 5, 2.7. -/
theorem test_enc_blk :
    seen (exec (.encBlk 4 3) { ready with st := headerDone, blk := katPayloadBlock }) (fun t => (t.blk, t.st)) =
      some (katCipherBlock, payloadDone) := by decide +kernel

/-- 2.7: with no genuine word, BLK is cleared. -/
theorem test_enc_blk_0 :
    seen (exec (.encBlk 0 3) { ready with st := initialized, blk := Vector.replicate 10 0xDEADBEEF })
      (fun t => (t.blk, t.st[0])) = some (Vector.replicate 10 0, 0x9CF212E1) := by decide +kernel

/-- 2.7: decryption returns the payload and reaches the same state as encryption. -/
theorem test_dec_blk :
    seen (exec (.decBlk 4 3) { ready with st := headerDone, blk := katCipherBlock }) (fun t => (t.blk, t.st)) =
      some (katPayloadBlock, payloadDone) := by decide +kernel

/-- 2.7: a full block. -/
theorem test_dec_blk_10 :
    seen (exec (.decBlk 10 3) { ready with st := initialized, blk := #v[0, 1, 2, 3, 4, 5, 6, 7, 8, 9] })
      (fun t => (t.blk[9], t.st[0])) = some (0x063B7ACD, 0x37E6584B) := by decide +kernel

/-- 1.2 step 7, P2. -/
theorem test_final_tag :
    seen (exec .finalTag { ready with st := payloadDone, opOpen := true }) (fun t => (t.tagOut, t.opOpen, t.st[4])) =
      some (katWindow, false, 0x82B2A588) := by decide +kernel

/-- 2.8: at reset. -/
theorem test_final_tag_unconfigured : seen (exec .finalTag afterReset) State.err = some .uninitialized := by decide +kernel

/-- 2.8: with A = 32 the words TAG_IN1..9 are ignored. -/
theorem test_tag_compare_pass :
    seen (exec .tagCompare { ready with
        cfg := ⟨1, 32⟩
        tagOut := (Vector.replicate 10 0).set 0 0x5FEFCE0D
        tagIn := (Vector.replicate 10 0x55555555).set 0 0x5FEFCE0D }) State.result = some .pass := by decide +kernel

/-- P2: bit 0 of TAG_IN2 flipped. -/
theorem test_tag_compare_fail :
    seen (exec .tagCompare { ready with tagOut := katWindow, tagIn := katWindow.set 2 0xFD9B73AC }) State.result =
      some .fail := by decide +kernel

/-! ## The host's side -/

/-- P4: a reserved opcode and a set reserved bit, as STATUS shows them. -/
theorem test_illegal_command_status :
    seen (step (afterReset.withFetchWord 32 0x000000FF)) statusWord = some 0x00000052 ∧
    seen (step (afterReset.withFetchWord 32 0x00000110)) statusWord = some 0x00000052 := by decide

/-- R79 and P1: a key word written sets its valid bit and reads 0. -/
theorem test_key_write :
    seen (hostRegWrite 0x024 4 7 afterReset) (fun t => (t.key[1], regValue .keystat t, idleRead 0x024 t)) =
      some (7, 2, 0) := by decide

/-- P1: a word of data memory written by the host reads back, the others do not exist or have no value. -/
theorem test_host_memory :
    seen (hostMemWrite 4095 9 afterReset) (fun t => t.mem.get 4095) = some (some 9) ∧
    hostMemWrite 4096 9 afterReset = .fault (.noSuchWord 4096) ∧
    hostMemRead 0 afterReset = .fault (.unwrittenWord 0) := ⟨by decide, rfl, rfl⟩

/-- R71: while BUSY = 1 a reserved offset reads 0 and ignores a write, where a register's write sets HAZARD (R318). -/
theorem test_busy_reserved_offset :
    seen (hostRegRead 0x01C 4 { ready.accept 3 with rdata := 7 }) (fun t => (t.rdata, t.freeIdx)) = some (0, 0) ∧
    seen (hostRegWrite 0x01C 4 1 (ready.accept 3)) State.hazard = some false ∧
    seen (hostRegWrite 0x018 4 1 (ready.accept 3)) State.hazard = some true := by decide

/-- R312: a reset of a busy DECRYPT unwrites its output region, here the payload's words 0x120..0x123, though the command
was about to fail its checks; R313: the header's words stay, and an idle block's reset keeps every word. -/
theorem test_reset_busy_decrypt :
    (hostReset { untagged.accept 3 with keyValid := 0 }).mem.cells = [(0x100, 0x10000002), (0x101, 0x30000004)] ∧
    (hostReset { untagged with pending := 3 }).mem = untagged.mem := by decide

/-! ## The hypotheses of each statement are met -/

/-- A state with the host's next act. -/
def act (s : State) (op : HostOp) : State := { s with hostOps := [op] }

/-- P1's state without its memory contents, with a trailer. -/
def unwritten : State := { sending with mem := ⟨4095, []⟩, trlAddr := 0x130, trlLen := 1 }

/-- The verifying tag of the empty message at R = 1, A = 32 (2.8). -/
def emptyTag : List Word := [0x5FEFCE0D]

theorem outputClear_of_disjoint {s : State} (hh : s.outputRegion.overlaps s.headerRegion = false)
    (ht : s.outputRegion.overlaps s.trailerRegion = false)
    (hp : s.outAddr = s.pldAddr ∨ s.outputRegion.overlaps s.payloadRegion = false) : s.outputClear := by
  have no : ∀ g h : Region, g.overlaps h = false → ∀ a, g.holds a = true → h.holds a = false := by
    intro g h hg a ha
    by_contra hc
    simp only [Region.overlaps, Region.holds, Bool.and_eq_true, decide_eq_true_eq, Bool.not_eq_false] at hg ha hc
    revert hg; simp; omega
  exact fun a ha => ⟨no _ _ hh a ha, no _ _ ht a ha, fun hne => no _ _ (hp.resolve_left hne) a ha⟩

theorem sending_ready : sending.WholeReady :=
  ⟨by decide, by decide, by decide, by decide, outputClear_of_disjoint (by decide) (by decide) (by decide)⟩

theorem untagged_ready : untagged.WholeReady :=
  ⟨by decide, by decide, by decide, by decide, outputClear_of_disjoint (by decide) (by decide) (.inl rfl)⟩

theorem receiving_ready (tag : Block) : (receiving tag).WholeReady :=
  ⟨untagged_ready.key, untagged_ready.nonce, untagged_ready.configured, untagged_ready.inRange, untagged_ready.clear⟩

theorem unwritten_ready : unwritten.WholeReady :=
  ⟨by decide, by decide, by decide, by decide, outputClear_of_disjoint (by decide) (by decide) (by decide)⟩

theorem sending_holds :
    sending.mem.Holds sending.headerRegion katHeader ∧ sending.mem.Holds sending.payloadRegion katPayload ∧
      sending.mem.Holds sending.trailerRegion [] :=
  ⟨⟨by decide, by decide⟩, ⟨by decide, by decide⟩, ⟨by decide, by decide⟩⟩

theorem untagged_holds :
    untagged.mem.Holds untagged.headerRegion katHeader ∧ untagged.mem.Holds untagged.payloadRegion katCipher ∧
      untagged.mem.Holds untagged.trailerRegion [] :=
  ⟨⟨by decide, by decide⟩, ⟨by decide, by decide⟩, ⟨by decide, by decide⟩⟩

theorem receiving_holds (tag : Block) :
    (receiving tag).mem.Holds (receiving tag).headerRegion katHeader ∧
      (receiving tag).mem.Holds (receiving tag).payloadRegion katCipher ∧
      (receiving tag).mem.Holds (receiving tag).trailerRegion [] := untagged_holds

theorem witness_HAndRotrBitByBit : (0 < 1 ∧ 1 < 32 ∧ 0 < 32) ∧ (0 < 31 ∧ 31 < 32) := by decide
theorem witness_QuarterRoundOnItsFourWords :
    ((1 : Fin 16) ≠ 0 ∧ (1 : Fin 16) ≠ 4 ∧ (1 : Fin 16) ≠ 8 ∧ (1 : Fin 16) ≠ 12) ∧
      ([0, 4, 8, 12] : List (Fin 16)).Nodup := by decide
theorem witness_RoundScheduleIsFree : columns.reverse.Perm columns ∧ diagonals.reverse.Perm diagonals :=
  ⟨List.reverse_perm _, List.reverse_perm _⟩
theorem witness_PermutationFIsInjective : permuteF 1 iota = permuteF 1 iota := rfl
theorem witness_PermHAndPermRotrComplete : afterReset.dbgLock = false ∧ (1 : BitVec 5) ≠ 0#5 ∧ (31 : BitVec 5) ≠ 0#5 := by
  decide
theorem witness_PermGCompletes : afterReset.dbgLock = false := by decide
theorem witness_PermFCompletes :
    (afterReset.dbgLock = false ∧ (1 : BitVec 6) ≠ 0#6 ∧ (63 : BitVec 6) ≠ 0#6) ∧
      (ready.dbgLock = false ∧ ready.isConfigured) := by decide
theorem witness_ConfigCompletes : afterReset.opOpen = false ∧ { ready with opOpen := true }.opOpen = true := by decide
theorem witness_StateInitCompletes :
    ready.dbgLock = false ∧ ready.keyValid = 0b1111#4 ∧ ready.nonceValid = 0b11#2 ∧ ready.isConfigured := by decide
theorem witness_InitSeparatesKeysAndNonces :
    initState katKey katNonce katParams = initState katKey katNonce katParams := rfl
/-- The all-padding second block of a sequence of ten words, and its last word. -/
theorem witness_PadSplitsIntoBlocks : 1 ≤ (List.replicate 10 (7 : Word)).length / 10 ∧ 9 < 10 := by decide
theorem witness_BlockCommandsRunThePhase : ready.dbgLock = false ∧ ready.isConfigured ∧ katPayload ≠ [] := by decide
/-- GCOUNT at both ends of its legal range. -/
theorem witness_AbsorbBlkCompletes :
    ready.dbgLock = false ∧ (0 : BitVec 4).toNat ≤ 10 ∧ (10 : BitVec 4).toNat ≤ 10 ∧ ready.isConfigured := by decide
/-- GCOUNT at both ends of its legal range. -/
theorem witness_EncBlkCompletes :
    ready.dbgLock = false ∧ (0 : BitVec 4).toNat ≤ 10 ∧ (10 : BitVec 4).toNat ≤ 10 ∧ ready.isConfigured := by decide
/-- GCOUNT at both ends of its legal range. -/
theorem witness_DecBlkCompletes :
    ready.dbgLock = false ∧ (0 : BitVec 4).toNat ≤ 10 ∧ (10 : BitVec 4).toNat ≤ 10 ∧ ready.isConfigured := by decide
/-- Two blocks that differ only past GCOUNT = 4. -/
theorem witness_BlockCommandsIgnorePadPositions :
    (ready.dbgLock = false ∧ (4 : BitVec 4).toNat ≤ 10 ∧ ready.isConfigured) ∧
      ∀ j, (h : j < 10) → j < (4 : BitVec 4).toNat → (ready.blk.set 4 0xDEADBEEF)[j] = ready.blk[j] := by decide
theorem witness_CtEqComparesEveryWord : ctEq katTag katTag 4 = true ∧ 3 < 4 := by decide
theorem witness_FinalTagCompletes : ready.dbgLock = false ∧ ready.isConfigured := by decide
/-- Equal tags, and tags that differ in the last of the A/32 = 4 words only. -/
theorem witness_TagCompareCompletes :
    (ready.dbgLock = false ∧ ready.isConfigured) ∧
      (∀ i, (h : i < 10) → i < ready.cfg.a.toNat / 32 → katWindow[i] = (katWindow.set 4 1)[i]) ∧
      ¬ (∀ i, (h : i < 10) → i < ready.cfg.a.toNat / 32 → katWindow[i] = (katWindow.set 3 1)[i]) := by decide
/-- The first and the last bit of a verifying tag. -/
theorem witness_TagBitFlipIsRejected :
    (0 < emptyTag.length ∧ emptyTag.length = (⟨1, 32⟩ : Params).tagWords ∧ 0 < 32 ∧ 31 < 32) ∧
      decryptFn katKey katNonce [] [] [] emptyTag ⟨1, 32⟩ = ([], true) := by decide +kernel
/-- A verifying tag and one that does not verify. -/
theorem witness_LengthInvariants :
    (decryptFn katKey katNonce [] [] [] emptyTag ⟨1, 32⟩).2 = true ∧
      (decryptFn katKey katNonce [] [] [] [0] ⟨1, 32⟩).2 = false := by decide +kernel
/-- A header, a payload and no trailer; the legal configuration of the DEC_BLK clause. -/
theorem witness_ComponentCommandsRunTheOperation :
    (ready.dbgLock = false ∧ ready.keyValid = 0b1111#4 ∧ ready.nonceValid = 0b11#2 ∧ ready.isConfigured) ∧
      ready.cfg.legal := by decide
theorem witness_EncryptCompletes :
    sending.WholeReady ∧ sending.mem.Holds sending.headerRegion katHeader ∧
      sending.mem.Holds sending.payloadRegion katPayload ∧ sending.mem.Holds sending.trailerRegion [] :=
  ⟨sending_ready, sending_holds⟩
theorem witness_DecryptCompletesWithPass :
    ((receiving katWindow).WholeReady ∧
      (receiving katWindow).mem.Holds (receiving katWindow).headerRegion katHeader ∧
      (receiving katWindow).mem.Holds (receiving katWindow).payloadRegion katCipher ∧
      (receiving katWindow).mem.Holds (receiving katWindow).trailerRegion []) ∧
      decryptFn katKey katNonce katHeader katCipher [] (katWindow.toList.take 4) ⟨4, 128⟩ = (katPayload, true) :=
  ⟨⟨receiving_ready _, receiving_holds _⟩, by decide +kernel⟩
theorem witness_DecryptCompletesWithFail :
    ((receiving (katWindow.set 3 0)).WholeReady ∧
      (receiving (katWindow.set 3 0)).mem.Holds (receiving (katWindow.set 3 0)).headerRegion katHeader ∧
      (receiving (katWindow.set 3 0)).mem.Holds (receiving (katWindow.set 3 0)).payloadRegion katCipher ∧
      (receiving (katWindow.set 3 0)).mem.Holds (receiving (katWindow.set 3 0)).trailerRegion []) ∧
      decryptFn katKey katNonce katHeader katCipher [] ((katWindow.set 3 0).toList.take 4) ⟨4, 128⟩ = ([], false) :=
  ⟨⟨receiving_ready _, receiving_holds _⟩, by decide +kernel⟩
theorem witness_DecryptUndoesEncrypt :
    (sending.WholeReady ∧ sending.cfg.legal) ∧
      (sending.mem.Holds sending.headerRegion katHeader ∧ sending.mem.Holds sending.payloadRegion katPayload ∧
        sending.mem.Holds sending.trailerRegion []) ∧
      exec .encrypt sending = .next (encryptEffect sending katHeader katPayload []) :=
  ⟨⟨sending_ready, by decide⟩, sending_holds,
    (guarded_of_none (cs := wholeChecks sending) sending (onInputs sending (encryptEffect sending)) (by decide)).trans
      (onInputs_of_ok (encryptEffect sending) (by decide))⟩
/-- The first word of the header, the last of the payload, and the trailer's only word. -/
theorem witness_UnwrittenInputFaults :
    unwritten.WholeReady ∧ (unwritten.mem.get 0x100 = none ∧ unwritten.headerRegion.holds 0x100 = true) ∧
      (unwritten.mem.get 0x113 = none ∧ unwritten.payloadRegion.holds 0x113 = true) ∧
      (unwritten.mem.get 0x130 = none ∧ unwritten.trailerRegion.holds 0x130 = true) :=
  ⟨unwritten_ready, by decide, by decide, by decide⟩
/-- The first row, a middle row, the last row, and no row. -/
theorem witness_FirstErrorIsReported :
    FirstApplies (errorTable (.permRotr 0) { afterReset with dbgLock := true }) (some .locked) ∧
      FirstApplies (errorTable .encrypt afterReset) (some .invalidKeySize) ∧
      FirstApplies (errorTable .encrypt { unwritten with outAddr := 0x100 }) (some .overlapError) ∧
      (FirstApplies (errorTable .permH afterReset) none ∧ seen (exec .permH afterReset) State.err = some .noError) := by
  have oc : ¬ State.outputClear { unwritten with outAddr := 0x100 } := fun h => by
    have := (h 0x100 (by decide)).1; revert this; decide
  refine ⟨.inl ⟨by decide, rfl⟩, ?_, ?_, ?_, by decide⟩
  · exact .inr ⟨by decide, .inr ⟨by decide, .inr ⟨by decide, .inl ⟨by decide, rfl⟩⟩⟩⟩
  · exact .inr ⟨by decide, .inr ⟨by decide, .inr ⟨by decide, .inr ⟨by decide, .inr ⟨by decide, .inr ⟨by decide,
      .inr ⟨by decide, .inl ⟨⟨by decide, oc⟩, rfl⟩⟩⟩⟩⟩⟩⟩⟩
  · exact .inr ⟨by decide, .inr ⟨by decide, .inr ⟨by decide, .inr ⟨by decide, .inr ⟨by decide, .inr ⟨by decide,
      .inr ⟨by decide, .inr ⟨fun h => absurd h.1 (by decide), rfl⟩⟩⟩⟩⟩⟩⟩⟩
/-- The clause on precise errors: a command that changes STATUS.ERR. -/
theorem witness_FirstErrorIsReported_precise :
    exec .encrypt afterReset = .next (afterReset.raise .invalidKeySize) ∧
      (afterReset.raise .invalidKeySize).err ≠ afterReset.err := ⟨rfl, by decide⟩
/-- The opcodes at the edges of both reserved ranges, and one reserved bit of format N. -/
theorem witness_IllegalWordsChangeNothing :
    ((afterReset.accept 0).EngineMoves [] ∧ (act (afterReset.accept 0) .wait).EngineMoves [] ∧
        (afterReset.accept 0).busy = true) ∧
      (0x05 ≤ (0x05 : Word).toNat % 256 ∧ (0x0F : Word).toNat % 256 ≤ 0x0F ∧ 0x1A ≤ (0x1A : Word).toNat % 256) ∧
      ((0x100 : Word) ≠ 0 ∧ (0x100 : Word) &&& reservedMask (formatOf .permH) = 0x100 ∧
        (0x110 : Word) = encode .permH ||| 0x100) := by decide
theorem witness_LockDoesNotTouchOtherCommands :
    (Instr.nop.engineLevel = false ∧ exec .nop afterReset = .next afterReset) ∧
      (Instr.encrypt.engineLevel = false ∧ exec .encrypt unwritten = .fault (.unwrittenWord 0x100)) :=
  ⟨⟨by decide, rfl⟩, by decide,
    (guarded_of_none (cs := wholeChecks unwritten) unwritten (onInputs unwritten (encryptEffect unwritten))
      (by decide)).trans (onInputs_of_error (encryptEffect unwritten) (by decide))⟩
theorem witness_LockedModeEntryAndExit :
    ((act ready (.regWrite 0x004 4 2)).busy = false ∧
      (act ready (.regWrite 0x004 4 2)).hostOps = [.regWrite 0x004 4 2] ∧
      (act sending .reset).hostOps = [.reset]) ∧
    { afterReset with dbgLock := true }.dbgLock = true ∧
      { afterReset with dbgLock := true }.hostOps.head? ≠ some .reset ∧
      step { afterReset with dbgLock := true } = .next { afterReset with dbgLock := true } :=
  ⟨by decide, by decide, by decide, rfl⟩
theorem witness_CommandsKeepHostRegisters :
    exec .zeroize ready = execZeroize ready ∧ seen (exec .zeroize ready) State.mem = some ready.mem ∧
      Instr.zeroize.wholeOp = false := ⟨rfl, by decide, by decide⟩
theorem witness_RegistersKeepTheirWriters :
    exec .nop ready = .next ready ∧ Instr.nop.isConfig = false ∧ Instr.nop.wholeOp = false ∧
      Instr.nop ≠ .zeroize ∧ Instr.nop ≠ .permH ∧ Instr.nop ≠ .stateInit ∧ Instr.nop ≠ .finalTag ∧
      Instr.nop ≠ .tagCompare ∧ Instr.nop ≠ .decrypt := ⟨rfl, by decide⟩
theorem witness_IrqFollowsDone :
    afterReset.busy = false ∧ (2 : Word).getLsbD 1 = true ∧ (1 : Word).getLsbD 0 = true ∧ (2 : Word).getLsbD 0 = false := by
  decide
theorem witness_StatusFieldsAndWrite :
    (act ready (.regWrite 0x008 4 2)).busy = false ∧
      (act ready (.regWrite 0x008 4 2)).hostOps = [.regWrite 0x008 4 2] := by decide
theorem witness_RegisterMapRoundTrip : regAt 0x17C = some (.s 15) ∧ regAt 0 = some .id := by decide
theorem witness_CmdWriteAccepts :
    (act ready (.regWrite 0x00C 4 2)).busy = false ∧
      (act ready (.regWrite 0x00C 4 2)).hostOps = [.regWrite 0x00C 4 2] ∧
      (act (ready.accept 3) (.regWrite 0x00C 4 2)).busy = true ∧
      (act (ready.accept 3) (.regWrite 0x00C 4 2)).hostOps = [.regWrite 0x00C 4 2] := by decide
/-- CMD, and the first and the last reserved offset. -/
theorem witness_BusyWritesAreDropped :
    ((act (ready.accept 2) (.regWrite 0x00C 4 2)).busy = true ∧
        (act (ready.accept 2) (.regWrite 0x00C 4 2)).hostOps =
          [.regWrite (BitVec.ofNat 12 (Reg.offset .cmd)) 4 2]) ∧
      ((0x01C : BitVec 12).toNat % 4 = 0 ∧ regAt (0x01C : BitVec 12).toNat = none) ∧
      ((0xFFC : BitVec 12).toNat % 4 = 0 ∧ regAt (0xFFC : BitVec 12).toNat = none ∧
        (act (ready.accept 2) (.regWrite 0xFFC 4 2)).hostOps = [.regWrite 0xFFC 4 2]) := by decide
/-- A reserved offset, STATUS, ID, and the last debug window in unlocked mode. -/
theorem witness_HostReadsHaveNoSideEffects :
    ((0xFFC : BitVec 12).toNat % 4 = 0 ∧ (act ready (.regRead 0xFFC 4)).hostOps = [.regRead 0xFFC 4] ∧
        (act ready (.regRead 0xFFC 4)).busy = false ∧ regAt (0xFFC : BitVec 12).toNat = none) ∧
      ((0x008 : BitVec 12).toNat % 4 = 0 ∧ (0x000 : BitVec 12).toNat % 4 = 0) ∧
      ((0x17C : BitVec 12) = BitVec.ofNat 12 (Reg.offset (.s 15)) ∧ (act ready (.regRead 0x17C 4)).dbgLock = false ∧
        Reg.isDebug (.key 0) = false) := by decide
theorem witness_LockedModeHidesSecrets :
    { ready with dbgLock := true }.dbgLock = true ∧ { ready with dbgLock := true }.busy = false ∧
      Reg.isDebug .opa = true ∧ Reg.isDebug (.s 15) = true := by decide
/-- A byte access at a legal offset, and a word access at an odd one. -/
theorem witness_NarrowOrMisalignedAccessIsRefused :
    ((1 : Nat) ≠ 4 ∧ (act ready (.regRead 0 1)).hostOps = [.regRead 0 1]) ∧
      ((0xFFD : BitVec 12).toNat % 4 ≠ 0 ∧ (act ready (.regWrite 0xFFD 4 1)).hostOps = [.regWrite 0xFFD 4 1]) := by
  decide
/-- A debug window in unlocked mode, and a register that is none in locked mode. -/
theorem witness_RegisterWritesReadBack :
    (ready.busy = false ∧ ready.dbgLock = false ∧ Reg.isDebug (.s 15) = true ∧ Reg.isDebug (.tagIn 9) = false) ∧
      Reg.isPlain (.s 15) = true ∧ Reg.isPlain (.tagIn 9) = true ∧ Reg.isPlain (.nonce 0) = true ∧
      (Reg.opa ≠ .opb ∧ Reg.opa ≠ .keystat) ∧ Reg.isReadOnly .id = true ∧
      ((0x01C : BitVec 12).toNat % 4 = 0 ∧ regAt (0x01C : BitVec 12).toNat = none) := by decide
theorem witness_KeyWritesSetTheirValidBit : afterReset.busy = false := by decide
/-- The last existing word, the first that does not exist, a written word and an unwritten one; beside a busy ENCRYPT, the
word after the output region for a write, and a header word for a read; and any word beside a busy TAG_COMPARE. -/
theorem witness_HostMemoryAccess :
    ((act afterReset (.memWrite 4095 9)).hostOps = [.memWrite 4095 9] ∧
        (4095 : Word).toNat < afterReset.mem.words ∧ afterReset.mem.words ≤ (4096 : Word).toNat ∧
        ¬ afterReset.WholeBusy) ∧
      ((act sending (.memRead 0x100)).hostOps = [.memRead 0x100] ∧ sending.mem.get 0x100 = some 0x10000002 ∧
        sending.mem.get 0x102 = none) ∧
      ((sending.accept 2).WholeBusy ∧
        ¬ (∃ g ∈ (sending.accept 2).regions, g.addr ≤ (0x124 : Word).toNat ∧ (0x124 : Word).toNat < g.addr + g.len) ∧
        ¬ ((sending.accept 2).outAddr.toNat ≤ (0x100 : Word).toNat)) ∧
      ¬ (sending.accept 0x19).WholeBusy := by decide
/-- The header's first word and the output's last word; the pending word is ENCRYPT. -/
theorem witness_InFlightAccessFaults :
    ((sending.accept 2).busy = true ∧ (sending.accept 2).pending = 0x00000002 ∧
        (0x123 : Word).toNat < (sending.accept 2).mem.words) ∧
      (∃ g ∈ (sending.accept 2).regions, g.addr ≤ (0x100 : Word).toNat ∧ (0x100 : Word).toNat < g.addr + g.len) ∧
      ((sending.accept 2).outAddr.toNat ≤ (0x123 : Word).toNat ∧
        (0x123 : Word).toNat < (sending.accept 2).outAddr.toNat + (sending.accept 2).pldLen.toNat) := by decide
theorem witness_ResetReadsZero : Reg.ctrl ≠ .id ∧ Reg.s 15 ≠ .id ∧ 3 < 4 := by decide
/-- A busy ENCRYPT, a busy command that is no whole operation, and an idle block. -/
theorem witness_ResetInput :
    (act (sending.accept 2) .reset).hostOps = [.reset] ∧ (act (sending.accept 2) .reset).WholeBusy ∧
      ¬ (act (sending.accept 0x10) .reset).WholeBusy ∧ ¬ (act sending .reset).WholeBusy := by decide
theorem witness_StepRunsTheDecodedCommand :
    (ready.accept 0x14).EngineMoves [] ∧ (act (ready.accept 0x14) .wait).EngineMoves [] ∧
      (ready.accept 0x14).busy = true ∧ decode (ready.accept 0x14).pending = .ok .stateInit := by decide
theorem witness_EngineAlwaysCompletes :
    (ready.EngineMoves [] ∧ ready.busy = false) ∧ (act (ready.accept 2) .wait).EngineMoves [] ∧
      (ready.accept 2).busy = true := by decide
theorem witness_EncodeOfDecode : decode 0x00003417 = .ok (.decBlk 4 3) := by decide
/-- A state with a host write to CMD to come. -/
theorem witness_EveryStepKeepsTheInvariant :
    (act sending (.regWrite 0x00C 4 2)).Inv ∧
      step (act sending (.regWrite 0x00C 4 2)) = .next (sending.accept 2) := ⟨by decide, rfl⟩

end Sys2Proof.Tests
end

section
/-! PROOFS. CTRL, STATUS and CMD at the host's window (spec/10_state.md R23-R29, R296): what a host write does, what a
host read gives, where the fields stand, and which steps keep locked mode. -/

namespace Sys2Proof

/-! ## Fields of a word -/

/-- The bits of a field, read at its own place and width, are the field. -/
theorem extractLsb'_fieldAt_same {n : Nat} (v : BitVec n) (lo : Nat) (h : lo + n ≤ 32) :
    (fieldAt v lo).extractLsb' lo n = v := by
  apply BitVec.eq_of_getLsbD_eq
  intro i hi
  simp [hi, getLsbD_fieldAt v lo (lo + i) (by omega)]

/-- Bits read wholly below or wholly above a field are 0. -/
theorem extractLsb'_fieldAt_apart {n : Nat} (v : BitVec n) (lo start len : Nat) (hw : start + len ≤ 32)
    (h : start + len ≤ lo ∨ lo + n ≤ start) : (fieldAt v lo).extractLsb' start len = 0#len := by
  apply BitVec.eq_of_getLsbD_eq
  intro i hi
  have hbit := getLsbD_fieldAt v lo (start + i) (by omega)
  rcases h with below | above
  · simp [hi, hbit, show ¬ lo ≤ start + i by omega]
  · simp [hi, hbit, BitVec.getLsbD_of_ge v (start + i - lo) (by omega)]

end Sys2Proof

namespace Sys2Proof.Machine

/-- The one bit of a flag's field is the flag. -/
@[simp] theorem bit_getElem_zero (b : Bool) : (bit b)[0] = b := by simp [bit]

theorem configured_eq (s : State) : s.configured = decide (s.cfg.r ≠ 0#6 ∧ s.cfg.a ≠ 0#9) := by
  simp [State.configured]

/-- The flags of STATUS, each at its bit (R24). -/
theorem statusWord_flags (s : State) :
    (statusWord s).getLsbD 0 = s.busy ∧ (statusWord s).getLsbD 1 = s.done ∧
      (statusWord s).getLsbD 8 = s.rDefaulted ∧ (statusWord s).getLsbD 9 = s.aDefaulted ∧
      (statusWord s).getLsbD 10 = s.configured ∧ (statusWord s).getLsbD 11 = s.opOpen ∧
      (statusWord s).getLsbD 12 = s.hazard ∧ (statusWord s).getLsbD 13 = s.dbgLock := by
  simp [statusWord, getElem_fieldAt]

/-- The fields of STATUS wider than a bit, and its zero bits above LOCKED (R24). -/
theorem statusWord_fields (s : State) :
    (statusWord s).extractLsb' 2 2 = resultBits s.result ∧ (statusWord s).extractLsb' 4 4 = errBits s.err ∧
      (statusWord s).extractLsb' 14 18 = 0 := by
  simp [statusWord, BitVec.extractLsb'_or, extractLsb'_fieldAt_same, extractLsb'_fieldAt_apart]

/-- The flags of CTRL, and 0 above them (R23). -/
theorem ctrlWord_fields (s : State) :
    (ctrlWord s).getLsbD 0 = s.irqEn ∧ (ctrlWord s).getLsbD 1 = s.dbgLock ∧ (ctrlWord s).extractLsb' 2 30 = 0 := by
  simp [ctrlWord, getElem_fieldAt, BitVec.extractLsb'_or, extractLsb'_fieldAt_apart]

/-- The fields of CFG, and 0 beside them (R28). -/
theorem cfgWord_fields (c : Params) :
    (cfgWord c).extractLsb' 0 6 = c.r ∧ (cfgWord c).extractLsb' 6 10 = 0 ∧ (cfgWord c).extractLsb' 16 9 = c.a ∧
      (cfgWord c).extractLsb' 25 7 = 0 := by
  simp [cfgWord, BitVec.extractLsb'_or, extractLsb'_fieldAt_same, extractLsb'_fieldAt_apart]

/-- The fields of KEYSTAT, and 0 above them (R29). -/
theorem keystatWord_fields (s : State) :
    (keystatWord s).extractLsb' 0 4 = s.keyValid ∧ (keystatWord s).extractLsb' 4 2 = s.nonceValid ∧
      (keystatWord s).extractLsb' 6 26 = 0 := by
  simp [keystatWord, BitVec.extractLsb'_or, extractLsb'_fieldAt_same, extractLsb'_fieldAt_apart]

/-! ## The host's accesses to one register -/

theorem regAt_ctrl : regAt (0x004 : BitVec 12).toNat = some .ctrl := by decide
theorem regAt_status : regAt (0x008 : BitVec 12).toNat = some .status := by decide
theorem regAt_cmd : regAt (0x00C : BitVec 12).toNat = some .cmd := by decide

/-- A read of a register that is no debug window gives what the register holds, in either mode. -/
theorem idleRead_of_regAt {off : BitVec 12} {r : Reg} (s : State) (hr : regAt off.toNat = some r)
    (hd : r.isDebug = false) : idleRead off s = regValue r s := by simp [idleRead, hr, hd]

/-- While BUSY = 0 a host write to a register that is no debug window stores in it, in either mode. -/
theorem idleWrite_of_regAt {off : BitVec 12} {r : Reg} (v : Word) (s : State) (hr : regAt off.toNat = some r)
    (hd : r.isDebug = false) : idleWrite off v s = regStore r v s := by simp [idleWrite, hr, hd]

/-- A store in STATUS is the two conditional clears of R25. -/
theorem regStore_status (v : Word) (s : State) :
    regStore .status v s = { s with
      done := if v.getLsbD 1 then false else s.done
      hazard := if v.getLsbD 12 then false else s.hazard } := by
  have clearIf (w b : Bool) : (b && !w) = if w then false else b := by cases w <;> simp
  simp only [regStore, clearIf]

/-- While BUSY = 1 a host write to any register sets HAZARD and nothing else (R318, R320). -/
theorem busyWrite_of_regAt {off : BitVec 12} {r : Reg} (s : State) (hr : regAt off.toNat = some r) :
    busyWrite off s = { s with hazard := true } := by simp [busyWrite, hr]

/-- A step with a legal host write to come, while BUSY = 0. -/
theorem step_regWrite_idle {s : State} {off : BitVec 12} {v : Word} {rest : List HostOp}
    (hops : s.hostOps = .regWrite off 4 v :: rest) (hl : legalAccess off 4 = true) (hb : s.busy = false) :
    step s = .next (idleWrite off v { s with hostOps := rest }) := by
  simp [step_of_cons hops, hostAct, hostRegWrite, hl, hb]

/-- A step with a legal host write to come, while BUSY = 1. -/
theorem step_regWrite_busy {s : State} {off : BitVec 12} {v : Word} {rest : List HostOp}
    (hops : s.hostOps = .regWrite off 4 v :: rest) (hl : legalAccess off 4 = true) (hb : s.busy = true) :
    step s = .next (busyWrite off { s with hostOps := rest }) := by
  simp [step_of_cons hops, hostAct, hostRegWrite, hl, hb]

/-! ## Locked mode -/

theorem configEffect_dbgLock (s : State) (ro ts : BitVec 8) : (configEffect s ro ts).dbgLock = s.dbgLock := by
  unfold configEffect
  split
  · exact withDiagnostics_dbgLock s ro ts
  · exact (raise_dbgLock _ _).trans (withDiagnostics_dbgLock s ro ts)

/-- A state with an error raised keeps DBG_LOCK, so a command keeps it when its effect does. -/
theorem dbgLock_of_raise_or {s t : State} {P : Prop} (h : (∃ e, t = s.raise e) ∨ P)
    (heffect : P → t.dbgLock = s.dbgLock) : t.dbgLock = s.dbgLock := by
  rcases h with ⟨e, rfl⟩ | hP
  · exact raise_dbgLock s e
  · exact heffect hP

/-- No command writes DBG_LOCK (R23). -/
theorem exec_dbgLock {i : Instr} {s t : State} (h : exec i s = .next t) : t.dbgLock = s.dbgLock := by
  cases i with
  | nop => cases h; rfl
  | config ro ts =>
    exact dbgLock_of_raise_or (execConfig_next h) fun e => (congrArg State.dbgLock e).trans (configEffect_dbgLock s ro ts)
  | encrypt => exact dbgLock_of_raise_or (execEncrypt_next h) (by rintro ⟨-, _, _, _, -, rfl⟩; rfl)
  | decrypt => exact dbgLock_of_raise_or (execDecrypt_next h) (by rintro ⟨-, _, _, _, -, rfl⟩; rfl)
  | zeroize => cases h; rfl
  | permH => exact dbgLock_of_raise_or (execPermH_next h) (congrArg State.dbgLock)
  | permRotr ramt => exact dbgLock_of_raise_or (execPermRotr_next h) (congrArg State.dbgLock)
  | permG qa qb qc qd => exact dbgLock_of_raise_or (execPermG_next h) (congrArg State.dbgLock)
  | permF nr => exact dbgLock_of_raise_or (execPermF_next h) (congrArg State.dbgLock)
  | stateInit => exact dbgLock_of_raise_or (execStateInit_next h) (congrArg State.dbgLock)
  | absorbBlk g d => exact dbgLock_of_raise_or (execAbsorbBlk_next h) (congrArg State.dbgLock)
  | encBlk g d => exact dbgLock_of_raise_or (execEncBlk_next h) (congrArg State.dbgLock)
  | decBlk g d => exact dbgLock_of_raise_or (execDecBlk_next h) (congrArg State.dbgLock)
  | finalTag => exact dbgLock_of_raise_or (execFinalTag_next h) (congrArg State.dbgLock)
  | tagCompare => exact dbgLock_of_raise_or (execTagCompare_next h) (congrArg State.dbgLock)

/-- The engine's turn keeps DBG_LOCK: it stays idle, raises ILLEGAL_COMMAND, or completes a command. -/
theorem engineTurn_dbgLock {s t : State} (h : engineTurn s = .next t) : t.dbgLock = s.dbgLock := by
  cases hb : s.busy with
  | false => rw [engineTurn_of_idle hb] at h; cases h; rfl
  | true =>
    rw [engineTurn_of_busy hb] at h
    obtain ⟨u, hu, rfl⟩ := complete_next h
    rcases runWord_next hu with rfl | ⟨i, -, hi⟩
    · rfl
    · exact (finish_dbgLock u).trans (exec_dbgLock hi)

/-- A store in any register leaves DBG_LOCK set: CTRL's write can only set it (R23). -/
theorem regStore_keeps_lock (r : Reg) (v : Word) {s : State} (h : s.dbgLock = true) :
    (regStore r v s).dbgLock = true := by
  cases r with
  | ctrl => simp [regStore, h]
  | _ => exact h

theorem idleWrite_keeps_lock (off : BitVec 12) (v : Word) {s : State} (h : s.dbgLock = true) :
    (idleWrite off v s).dbgLock = true := by
  rcases idleWrite_cases off v s with e | ⟨r, -, -, e⟩ <;> rw [e]
  · exact h
  · exact regStore_keeps_lock r v h

theorem busyWrite_dbgLock (off : BitVec 12) (s : State) : (busyWrite off s).dbgLock = s.dbgLock := by
  rcases busyWrite_cases off s with ⟨-, e⟩ | ⟨-, e⟩ <;> rw [e]

theorem busyRead_dbgLock (off : BitVec 12) (s : State) : (busyRead off s).dbgLock = s.dbgLock := by
  obtain ⟨⟨v, n, e⟩, -⟩ := busyRead_cases off s
  rw [e]

/-- No act of the outside world but a reset leaves locked mode (R296). -/
theorem hostAct_keeps_lock {op : HostOp} {s t : State} (hop : op ≠ .reset) (h : hostAct op s = .next t)
    (hs : s.dbgLock = true) : t.dbgLock = true := by
  cases op with
  | regWrite off size v =>
    obtain ⟨-, rfl⟩ := hostRegWrite_next h
    split
    · exact (busyWrite_dbgLock off s).trans hs
    · exact idleWrite_keeps_lock off v hs
  | regRead off size =>
    obtain ⟨-, rfl⟩ := hostRegRead_next h
    split
    · exact (busyRead_dbgLock off s).trans hs
    · exact hs
  | memWrite addr v => obtain ⟨-, -, rfl⟩ := hostMemWrite_next h; exact hs
  | memRead addr => obtain ⟨-, -, v, -, rfl⟩ := hostMemRead_next h; exact hs
  | reset => exact absurd rfl hop
  | wait => exact (engineTurn_dbgLock h).trans hs

/-- No step but a reset leaves locked mode (R296). -/
theorem step_keeps_lock {s t : State} (hs : s.dbgLock = true) (hr : s.hostOps.head? ≠ some .reset)
    (h : step s = .next t) : t.dbgLock = true := by
  cases hops : s.hostOps with
  | nil => rw [step_of_nil hops] at h; exact (engineTurn_dbgLock h).trans hs
  | cons op rest =>
    rw [step_of_cons hops] at h
    have hop : op ≠ .reset := by rintro rfl; exact hr (by rw [hops]; rfl)
    exact hostAct_keeps_lock hop h hs

/-- A reset returns the block to unlocked mode (R296). -/
theorem step_reset_unlocks {s t : State} {rest : List HostOp} (hops : s.hostOps = .reset :: rest)
    (h : step s = .next t) : t.dbgLock = false := by
  rw [step_of_cons hops] at h
  cases h
  rfl

/-! ## The statements -/

/-- Settles O37: the write and the read of CTRL at its offset, and DBG_LOCK along every step. -/
theorem lockedModeEntryAndExit : Obligations.LockedModeEntryAndExit := by
  unfold Obligations.LockedModeEntryAndExit
  refine ⟨fun s v rest hb hops => ?_, fun s => ?_, fun s t hs hr h => step_keeps_lock hs hr h,
    fun s t rest hops h => step_reset_unlocks hops h⟩
  · rw [step_regWrite_idle hops (by decide) hb, idleWrite_of_regAt v _ regAt_ctrl rfl]
    rfl
  · rw [idleRead_of_regAt s regAt_ctrl rfl]
    exact ctrlWord_fields s

/-- Settles O42: the fields of the three words, and the write of STATUS as its two clears. -/
theorem statusFieldsAndWrite : Obligations.StatusFieldsAndWrite := by
  unfold Obligations.StatusFieldsAndWrite
  refine ⟨fun s => ?_, ⟨rfl, rfl, rfl⟩, by decide, cfgWord_fields, keystatWord_fields, fun s v rest hb hops => ?_⟩
  · obtain ⟨busy, done, rDefaulted, aDefaulted, configured, opOpen, hazard, locked⟩ := statusWord_flags s
    obtain ⟨result, err, zero⟩ := statusWord_fields s
    exact ⟨busy, done, result, err, rDefaulted, aDefaulted, configured.trans (configured_eq s), opOpen, hazard, locked,
      zero⟩
  · rw [step_regWrite_idle hops (by decide) hb, idleWrite_of_regAt v _ regAt_status rfl, regStore_status]

/-- Settles O43: a write to CMD accepts the word while BUSY = 0, is dropped while BUSY = 1, and CMD reads 0. -/
theorem cmdWriteAccepts : Obligations.CmdWriteAccepts := by
  unfold Obligations.CmdWriteAccepts
  refine ⟨fun s v rest hops => ⟨fun hb => ?_, fun hb => ?_⟩, fun s => ?_⟩
  · rw [step_regWrite_idle hops (by decide) hb, idleWrite_of_regAt v _ regAt_cmd rfl]
    rfl
  · rw [step_regWrite_busy hops (by decide) hb, busyWrite_of_regAt _ regAt_cmd]
  · rw [idleRead_of_regAt s regAt_cmd rfl]
    rfl

end Sys2Proof.Machine
end

section
/-! PROOFS. Words that are no command (spec/30_encoding.md R113, R114): which words the decoder refuses, and the step that
completes a refused word. -/

namespace Sys2Proof

open Laws

/-! ## The opcode of a word -/

theorem opcodeOf_toNat (w : Word) : (opcodeOf w).toNat = w.toNat % 256 := by
  simp [opcodeOf, BitVec.extractLsb'_toNat]

theorem opcodeOf_or (v w : Word) : opcodeOf (v ||| w) = opcodeOf v ||| opcodeOf w := BitVec.extractLsb'_or

theorem opcodeOf_and (v w : Word) : opcodeOf (v &&& w) = opcodeOf v &&& opcodeOf w := BitVec.extractLsb'_and

/-- No format reserves a bit of the opcode (R100). -/
theorem opcodeOf_reservedMask (f : Format) : opcodeOf (reservedMask f) = 0 := by cases f <;> decide

/-- Reserved bits lie outside the opcode. -/
theorem opcodeOf_of_reserved {r : Word} {f : Format} (h : r &&& reservedMask f = r) : opcodeOf r = 0 := by
  rw [← h, opcodeOf_and, opcodeOf_reservedMask]
  exact BitVec.and_zero

/-! ## The opcode and the command it names -/

/-- Every encoded word is as its row of R111 says. -/
theorem encodeRow (i : Instr) : EncodeRow.Statement i := by
  cases i with
  | nop => exact EncodeRow.nop
  | config rounds tagsel => exact EncodeRow.config rounds tagsel
  | encrypt => exact EncodeRow.encrypt
  | decrypt => exact EncodeRow.decrypt
  | zeroize => exact EncodeRow.zeroize
  | permH => exact EncodeRow.permH
  | permRotr ramt => exact EncodeRow.permRotr ramt
  | permG qa qb qc qd => exact EncodeRow.permG qa qb qc qd
  | permF nr => exact EncodeRow.permF nr
  | stateInit => exact EncodeRow.stateInit
  | absorbBlk g d => exact EncodeRow.absorbBlk g d
  | encBlk g d => exact EncodeRow.encBlk g d
  | decBlk g d => exact EncodeRow.decBlk g d
  | finalTag => exact EncodeRow.finalTag
  | tagCompare => exact EncodeRow.tagCompare

theorem opcodeOf_encode (i : Instr) : opcodeOf (encode i) = opcodeNumber i := (encodeRow i).1

theorem encode_and_reservedMask (i : Instr) : encode i &&& reservedMask (formatOf i) = 0 := (encodeRow i).2

/-- A word names a command only by that command's opcode. -/
theorem opcodeOf_of_fieldsOf {w : Word} {i : Instr} (h : fieldsOf w = some i) : opcodeOf w = opcodeNumber i := by
  unfold fieldsOf at h
  split at h <;> cases h <;> exact BitVec.eq_of_toNat_eq ‹_›

/-- A command's opcode names a command of the same format, whatever the word's other bits are. -/
theorem fieldsOf_of_opcodeOf {w : Word} {i : Instr} (h : opcodeOf w = opcodeNumber i) :
    ∃ j, fieldsOf w = some j ∧ formatOf j = formatOf i := by
  cases i <;> simp [fieldsOf, h, opcodeNumber, formatOf]

/-- The opcodes without a row in R111's table (R113). -/
def IsReservedOpcode (opc : Nat) : Prop := 0x05 ≤ opc ∧ opc ≤ 0x0F ∨ 0x1A ≤ opc

theorem opcodeNumber_not_reserved (i : Instr) : ¬ IsReservedOpcode (opcodeNumber i).toNat := by
  cases i <;> simp [IsReservedOpcode, opcodeNumber]

/-! ## The words that the decoder refuses -/

/-- R113: a word with a reserved opcode is no command. -/
theorem decode_of_reservedOpcode {w : Word} (h : IsReservedOpcode (w.toNat % 256)) :
    decode w = .error .reservedOpcode := by
  have names_none : fieldsOf w = none := by
    refine Option.eq_none_iff_forall_ne_some.mpr fun i hi => opcodeNumber_not_reserved i ?_
    rwa [← opcodeOf_of_fieldsOf hi, opcodeOf_toNat]
  simp [decode, names_none]

/-- R114: a command's word with reserved bits of its format set is no command. -/
theorem decode_encode_or_reserved {i : Instr} {r : Word} (hr : r ≠ 0) (hm : r &&& reservedMask (formatOf i) = r) :
    decode (encode i ||| r) = .error .reservedBits := by
  have opcode_kept : opcodeOf (encode i ||| r) = opcodeNumber i := by
    rw [opcodeOf_or, opcodeOf_of_reserved hm, opcodeOf_encode]
    exact BitVec.or_zero
  have bits_seen : (encode i ||| r) &&& reservedMask (formatOf i) = r := by
    rw [BitVec.and_or_distrib_right, encode_and_reservedMask, hm]
    exact BitVec.zero_or
  obtain ⟨j, names_j, same_format⟩ := fieldsOf_of_opcodeOf opcode_kept
  simpa [decode, names_j, same_format, bits_seen] using hr

end Sys2Proof

namespace Sys2Proof.Machine

/-! ## The step of a refused word -/

theorem runWord_of_decode_error {w : Word} {e : DecodeError} (h : decode w = .error e) (s : State) :
    runWord w s = .next (s.raise .illegalCommand) := by simp [runWord, h]

theorem complete_of_runWord {s t : State} (h : runWord s.pending s = .next t) : complete s = .next t.finish := by
  simp [complete, h]

/-- The engine's turn on a pending word that is no command: ILLEGAL_COMMAND and the completion writes (R27, R112). -/
theorem step_of_decode_error {s : State} {rest : List HostOp} {e : DecodeError} (hm : s.EngineMoves rest)
    (hb : s.busy = true) (h : decode s.pending = .error e) :
    step s = .next { s with err := .illegalCommand, busy := false, done := true, hostOps := rest } := by
  calc step s = engineTurn { s with hostOps := rest } := step_of_engineMoves hm
    _ = complete { s with hostOps := rest } := engineTurn_of_busy hb
    _ = _ := complete_of_runWord (runWord_of_decode_error h _)

/-- Settles O35: the decoder refuses both kinds of word, and a refused word ends in one step. -/
theorem illegalWordsChangeNothing : Obligations.IllegalWordsChangeNothing := by
  unfold Obligations.IllegalWordsChangeNothing
  refine fun s rest hm hb => ⟨fun hop => ?_, fun i r hr hmask hp => ?_⟩
  · exact step_of_decode_error hm hb (decode_of_reservedOpcode hop)
  · exact step_of_decode_error hm hb (hp ▸ decode_encode_or_reserved hr hmask)

end Sys2Proof.Machine
end

section
/-! PROOFS. The interrupt line (spec/60_exceptions.md R288): its level after the acceptance and the completion of a
command, and after a host write to CTRL or STATUS. -/

namespace Sys2Proof.Machine

/-! ## The level of the line after each write of IRQ_EN or DONE -/

/-- The acceptance of a command clears DONE (R26), and the line with it. -/
@[simp] theorem accept_irq (s : State) (w : Word) : (s.accept w).irq = false := by simp [State.irq]

/-- A completion sets DONE (R27), so the line is up exactly when it is enabled. -/
@[simp] theorem finish_irq (s : State) : s.finish.irq = s.irqEn := by simp [State.irq]

@[simp] theorem regStore_ctrl_irqEn (v : Word) (s : State) : (regStore .ctrl v s).irqEn = v.getLsbD 0 := rfl

@[simp] theorem regStore_ctrl_done (v : Word) (s : State) : (regStore .ctrl v s).done = s.done := rfl

/-- A store in CTRL puts its bit 0 in the place of IRQ_EN; the line follows at once. -/
theorem regStore_ctrl_irq (v : Word) (s : State) : (regStore .ctrl v s).irq = (v.getLsbD 0 && s.done) := by
  simp only [State.irq, regStore_ctrl_irqEn, regStore_ctrl_done]

@[simp] theorem regStore_status_irqEn (v : Word) (s : State) : (regStore .status v s).irqEn = s.irqEn := rfl

/-- A store of 1 in STATUS.DONE lowers the line (W1C, R25). -/
theorem regStore_status_irq_of_clear {v : Word} (hv : v.getLsbD 1 = true) (s : State) :
    (regStore .status v s).irq = false := by simp only [State.irq, regStore_status, hv, if_true, Bool.and_false]

/-! ## The host's write as a store -/

/-- A legal host write to a register that is no debug window, while BUSY = 0, is the store in that register. -/
theorem hostRegWrite_of_regAt {off : BitVec 12} {r : Reg} {s : State} (v : Word) (hl : legalAccess off 4 = true)
    (hb : s.busy = false) (hr : regAt off.toNat = some r) (hd : r.isDebug = false) :
    hostRegWrite off 4 v s = .next (regStore r v s) := by
  simp [hostRegWrite, hl, hb, idleWrite_of_regAt v s hr hd]

theorem hostRegWrite_ctrl {s : State} (v : Word) (hb : s.busy = false) :
    hostRegWrite 0x004 4 v s = .next (regStore .ctrl v s) :=
  hostRegWrite_of_regAt v (by decide) hb regAt_ctrl rfl

theorem hostRegWrite_status {s : State} (v : Word) (hb : s.busy = false) :
    hostRegWrite 0x008 4 v s = .next (regStore .status v s) :=
  hostRegWrite_of_regAt v (by decide) hb regAt_status rfl

/-- Settles O40: the line is a function of IRQ_EN and DONE, and each clause is the one write of them that it names. -/
theorem irqFollowsDone : Obligations.IrqFollowsDone := by
  unfold Obligations.IrqFollowsDone
  refine fun s => ⟨rfl, finish_irq s, accept_irq s, fun hb v => ⟨fun clear => ?_, fun enable => ?_, fun mask => ?_⟩⟩
  · exact ⟨_, hostRegWrite_status v hb, regStore_status_irq_of_clear clear s, regStore_status_irqEn v s⟩
  · have raised : (regStore .ctrl v s).irq = s.done := by rw [regStore_ctrl_irq, enable, Bool.true_and]
    exact ⟨_, hostRegWrite_ctrl v hb, raised, regStore_ctrl_done v s⟩
  · have lowered : (regStore .ctrl v s).irq = false := by rw [regStore_ctrl_irq, mask, Bool.false_and]
    exact ⟨_, hostRegWrite_ctrl v hb, lowered, regStore_ctrl_done v s⟩

end Sys2Proof.Machine
end

section
/-! PROOFS. The host beside a busy engine (spec/70_reset_and_hazards.md R318-R321): writes to the register window, and
accesses to the data memory of an ENCRYPT or DECRYPT in flight. -/

namespace Sys2Proof.Machine

/-! ## R21's table of offsets -/

theorem mem_allRegs (r : Reg) : r ∈ allRegs := by
  cases r <;> simp [allRegs, singleRegs]

/-- Every row of R21's table: a word of the window, at which no earlier row stands. -/
theorem allRegs_rows : ∀ r ∈ allRegs, regAt r.offset = some r ∧ r.offset % 4 = 0 ∧ r.offset < 0x1000 := by decide

theorem regAt_offset (r : Reg) : regAt r.offset = some r := (allRegs_rows r (mem_allRegs r)).1

theorem offset_mod_four (r : Reg) : r.offset % 4 = 0 := (allRegs_rows r (mem_allRegs r)).2.1

theorem offset_lt (r : Reg) : r.offset < 0x1000 := (allRegs_rows r (mem_allRegs r)).2.2

/-- A register's offset fits the twelve bits of the window's offsets. -/
theorem ofNat_offset_toNat (r : Reg) : (BitVec.ofNat 12 r.offset).toNat = r.offset := by
  rw [BitVec.toNat_ofNat, Nat.mod_eq_of_lt (offset_lt r)]

theorem regAt_ofNat_offset (r : Reg) : regAt (BitVec.ofNat 12 r.offset).toNat = some r := by
  rw [ofNat_offset_toNat, regAt_offset]

/-- R74: whole words at multiples of 4 are legal. -/
theorem legalAccess_of_aligned {off : BitVec 12} (h : off.toNat % 4 = 0) : legalAccess off 4 = true := by
  simp [legalAccess, h]

theorem legalAccess_ofNat_offset (r : Reg) : legalAccess (BitVec.ofNat 12 r.offset) 4 = true :=
  legalAccess_of_aligned (by rw [ofNat_offset_toNat, offset_mod_four])

/-! ## Register writes while BUSY = 1 -/

/-- A reserved offset is no register, so a write there is no hazard (R71). -/
theorem busyWrite_of_reserved {off : BitVec 12} (s : State) (hr : regAt off.toNat = none) : busyWrite off s = s := by
  simp [busyWrite, hr]

/-- Settles O44: at a register's offset the write sets HAZARD, at a reserved one it is ignored. -/
theorem busyWritesAreDropped : Obligations.BusyWritesAreDropped := by
  unfold Obligations.BusyWritesAreDropped
  refine fun s v rest hb => ⟨fun r hops => ?_, fun off aligned reserved hops => ?_⟩
  · rw [step_regWrite_busy hops (legalAccess_ofNat_offset r) hb, busyWrite_of_regAt _ (regAt_ofNat_offset r)]
  · rw [step_regWrite_busy hops (legalAccess_of_aligned aligned) hb, busyWrite_of_reserved _ reserved]

/-! ## Data memory beside a whole operation in flight -/

/-- The words 2 and 3 are ENCRYPT and DECRYPT (R117), so the engine that is busy with one of them has a whole
operation in flight. -/
theorem wholeInFlight_of_wholeBusy {s : State} (h : s.WholeBusy) : s.wholeInFlight = true := by
  have encrypt_word : decode 0x00000002 = .ok .encrypt := by decide
  have decrypt_word : decode 0x00000003 = .ok .decrypt := by decide
  obtain ⟨hb, hp | hp⟩ := h
  · simp only [State.wholeInFlight, hb, hp, encrypt_word, Bool.true_and]
  · simp only [State.wholeInFlight, hb, hp, decrypt_word, Bool.true_and]

/-- R321: the host may write no word of the four regions in flight. -/
theorem writeForbidden_iff (s : State) (a : Nat) :
    writeForbidden s a = true ↔
      s.wholeInFlight = true ∧ ∃ g ∈ s.regions, g.addr ≤ a ∧ a < g.addr + g.len := by
  simp [writeForbidden, State.regions, holds_iff, or_assoc]

/-- R321: the host may read no word of the output region in flight. -/
theorem readForbidden_iff (s : State) (a : Nat) :
    readForbidden s a = true ↔
      s.wholeInFlight = true ∧ s.outAddr.toNat ≤ a ∧ a < s.outAddr.toNat + s.pldLen.toNat := by
  simp [readForbidden, State.outputRegion, holds_iff]

theorem hostMemWrite_of_forbidden {s : State} {addr : Word} (v : Word) (ha : addr.toNat < s.mem.words)
    (h : writeForbidden s addr.toNat = true) : hostMemWrite addr v s = .fault (.inFlightAccess addr.toNat) := by
  simp [hostMemWrite, Nat.not_le.mpr ha, h]

theorem hostMemRead_of_forbidden {s : State} {addr : Word} (ha : addr.toNat < s.mem.words)
    (h : readForbidden s addr.toNat = true) : hostMemRead addr s = .fault (.inFlightAccess addr.toNat) := by
  simp [hostMemRead, Nat.not_le.mpr ha, h]

/-- Settles O51: a whole operation is in flight, so its regions are forbidden, and a forbidden access faults. -/
theorem inFlightAccessFaults : Obligations.InFlightAccessFaults := by
  unfold Obligations.InFlightAccessFaults
  intro s a v hb hp ha
  have inFlight : s.wholeInFlight = true := wholeInFlight_of_wholeBusy ⟨hb, hp⟩
  refine ⟨fun inRegion => ?_, fun above below => ?_⟩
  · exact hostMemWrite_of_forbidden v ha ((writeForbidden_iff s _).mpr ⟨inFlight, inRegion⟩)
  · exact hostMemRead_of_forbidden ha ((readForbidden_iff s _).mpr ⟨inFlight, above, below⟩)

end Sys2Proof.Machine
end

section
/-! PROOFS. The decoder and the encoder undo each other (spec/30_encoding.md R100-R117): a word is its opcode, its operand
fields and its reserved bits, put together. -/

namespace Sys2Proof

open Laws

/-! ## The fields of an encoded word -/

/-- The fields cut out of an encoded word are those that were put in. -/
theorem fieldsOf_encode (i : Instr) : fieldsOf (encode i) = some i := by
  rw [fieldsOf, opcodeOf_encode]
  cases i <;>
    simp [opcodeNumber, encode, wordB, BitVec.extractLsb'_or, extractLsb'_fieldAt_same, extractLsb'_fieldAt_apart]

/-- Settles O56: the fields come back, and the reserved bits are clear. -/
theorem decodeOfEncode : Obligations.DecodeOfEncode := by
  unfold Obligations.DecodeOfEncode
  exact fun i => decode_of_fields (fieldsOf_encode i) (encode_and_reservedMask i)

/-! ## A word put together from what its format cuts out of it -/

/-- The bits of a field cut out of a word and put back where it stood. -/
theorem getLsbD_fieldAt_extractLsb' (w : Word) (lo n k : Nat) (hk : k < 32) :
    (fieldAt (w.extractLsb' lo n) lo).getLsbD k = (decide (lo ≤ k ∧ k < lo + n) && w.getLsbD k) := by
  rw [getLsbD_fieldAt _ _ _ hk, BitVec.getLsbD_extractLsb']
  by_cases above : lo ≤ k
  · simp [above, show k - lo < n ↔ k < lo + n by omega, show lo + (k - lo) = k by omega]
  · simp [above]

/-- The operand bits of a word: what its format neither reserves nor uses for the opcode (R101-R106). -/
def operandBits (f : Format) (w : Word) : Word :=
  match f with
  | .N => 0
  | .C => fieldAt (w.extractLsb' 16 8) 16 ||| fieldAt (w.extractLsb' 8 8) 8
  | .R => fieldAt (w.extractLsb' 8 5) 8
  | .Q => fieldAt (w.extractLsb' 20 4) 20 ||| fieldAt (w.extractLsb' 16 4) 16 ||| fieldAt (w.extractLsb' 12 4) 12 |||
      fieldAt (w.extractLsb' 8 4) 8
  | .P => fieldAt (w.extractLsb' 8 6) 8
  | .B => fieldAt (w.extractLsb' 12 2) 12 ||| fieldAt (w.extractLsb' 8 4) 8

/-- In every format the operands, the opcode and the reserved bits cover the word (R100-R106). -/
theorem operandBits_or_opcode_or_reserved (f : Format) (w : Word) :
    operandBits f w ||| fieldAt (opcodeOf w) 0 ||| (w &&& reservedMask f) = w := by
  apply BitVec.eq_of_getLsbD_eq
  intro k hk
  cases f <;>
    simp only [operandBits, opcodeOf, BitVec.getLsbD_or, BitVec.getLsbD_and, getLsbD_fieldAt_extractLsb' _ _ _ _ hk] <;>
    interval_cases k <;> simp [reservedMask]

/-- A word that names a command, its reserved bits clear, is that command's encoding. -/
theorem encode_of_fieldsOf {w : Word} {i : Instr} (names : fieldsOf w = some i)
    (clear : w &&& reservedMask (formatOf i) = 0) : encode i = w := by
  have parts := operandBits_or_opcode_or_reserved (formatOf i) w
  rw [clear, opcodeOf_of_fieldsOf names] at parts
  rw [← parts]
  unfold fieldsOf at names
  split at names <;> cases names <;> simp [encode, wordB, operandBits, formatOf, opcodeNumber, fieldAt]

/-- Settles O57: nothing of the word is lost by decoding it. -/
theorem encodeOfDecode : Obligations.EncodeOfDecode := by
  unfold Obligations.EncodeOfDecode
  intro w i h
  obtain ⟨names, clear⟩ := fields_of_decode h
  exact encode_of_fieldsOf names clear

/-- Settles O58: each of the words is evaluated. -/
theorem specWordsDecode : Obligations.SpecWordsDecode := by
  unfold Obligations.SpecWordsDecode
  decide

end Sys2Proof
end

section
/-! PROOFS. Every command is one list of checks, in the order of R283, and an effect (spec/60_exceptions.md R281-R283): which
error a command reports, and what an effect leaves as it is. -/

namespace Sys2Proof.Machine

open Laws

/-! ## The conditions of the checks -/

theorem notConfigured_iff (s : State) : s.notConfigured = true ↔ ¬ s.isConfigured := by
  simp [State.notConfigured, State.isConfigured, Classical.or_iff_not_imp_left]

theorem notConfigured_of_isConfigured {s : State} (h : s.isConfigured) : s.notConfigured = false :=
  Bool.eq_false_iff.mpr fun hn => (notConfigured_iff s).mp hn h

/-- R256: the range check applies exactly when a non-empty region runs past MEM_WORDS. -/
theorem rangeCheck_iff (s : State) : (rangeCheck s).1 = true ↔ ¬ s.regionsInRange := by
  have inRange_all : (rangeCheck s).1 = false ↔ s.regionsInRange := by
    simp [rangeCheck, State.regionsInRange, ← inRange_iff, State.regions, and_assoc]
  rw [← inRange_all, Bool.not_eq_false]

/-- R76: regions that do not overlap share no address. -/
theorem overlaps_eq_false_iff (g h : Region) :
    g.overlaps h = false ↔ ∀ a, g.holds a = true → h.holds a = false := by
  rw [← Bool.not_eq_true, overlaps_iff]
  simp

/-- R257: the overlap check applies exactly when an output word is forbidden. -/
theorem overlapCheck_iff (s : State) : (overlapCheck s).1 = true ↔ ¬ s.outputClear := by
  have clear_iff : (overlapCheck s).1 = false ↔ s.outputClear := by
    by_cases inPlace : s.outAddr = s.pldAddr
    · simp [overlapCheck, overlaps_eq_false_iff, State.outputClear, inPlace, forall_and]
    · simp [overlapCheck, overlaps_eq_false_iff, State.outputClear, inPlace, forall_and, and_assoc]
  rw [← clear_iff, Bool.not_eq_false]

/-- R112: the engine-level commands are those with a numbered row from 0x10 up. -/
theorem engineLevel_eq (i : Instr) :
    i.engineLevel = (0x10 ≤ (opcodeNumber i).toNat && (opcodeNumber i).toNat ≤ 0x19) := by
  rw [Instr.engineLevel, opcodeOf_encode]

/-- The checks of every command as one list, in the order of R283; a command's own checks are the rows that its class
takes part in. -/
def errorChecks (i : Instr) (s : State) : List (Bool × ErrCode) :=
  [(i.engineLevel && s.dbgLock, .locked),
   (!i.wellFormed, .illegalOperand),
   (i.isConfig && s.opOpen, .sequenceError),
   (i.readsKey && (keyCheck s).1, .invalidKeySize),
   (i.readsKey && (nonceCheck s).1, .invalidNonceSize),
   (i.needsConfig && s.notConfigured, .uninitialized),
   (i.wholeOp && (rangeCheck s).1, .rangeError),
   (i.wholeOp && (overlapCheck s).1, .overlapError)]

/-- What a command does past its checks. -/
def effectOf (i : Instr) (s : State) : Answer :=
  match i with
  | .nop => execNop s
  | .config ro ts => .next (configEffect s ro ts)
  | .encrypt => onInputs s (encryptEffect s)
  | .decrypt => onInputs s (decryptEffect s)
  | .zeroize => execZeroize s
  | .permH => .next { s with res := mixH s.opa s.opb }
  | .permRotr r => .next { s with res := rotr s.opa r.toNat }
  | .permG a b c d => .next { s with st := quarterG s.st a.toFin b.toFin c.toFin d.toFin }
  | .permF nr => .next { s with st := permuteF (roundsOf nr s) s.st }
  | .stateInit => .next { s with st := initState s.key s.nonce s.cfg, opOpen := true }
  | .absorbBlk g d =>
    .next { s with st := absorbBlock s.st (operandBlock s.blk g.toNat) (domOf d) s.cfg.rounds }
  | .encBlk g d =>
    let b := encBlock s.st (operandBlock s.blk g.toNat) (domOf d) s.cfg.rounds
    .next { s with st := b.1, blk := windowOf g.toNat b.2 }
  | .decBlk g d =>
    let b := decBlock s.st (operandBlock s.blk g.toNat) g.toNat (domOf d) s.cfg.rounds
    .next { s with st := b.1, blk := windowOf g.toNat b.2 }
  | .finalTag =>
    let S := finalize s.st s.cfg.rounds
    .next { s with st := S, tagOut := windowOf s.cfg.tagWords (tagOf S s.cfg), opOpen := false }
  | .tagCompare => .next { s with result := verdictOf (ctEq s.tagOut.toList s.tagIn.toList s.cfg.tagWords) }

theorem guarded_congr {cs cs' : List (Bool × ErrCode)} (s : State) (k : Answer) (h : firstError cs = firstError cs') :
    guarded cs s k = guarded cs' s k := by simp only [guarded, h]

/-- Each command is the checks of its class, then its effect. -/
theorem exec_eq_guarded (i : Instr) (s : State) : exec i s = guarded (errorChecks i s) s (effectOf i s) := by
  cases i with
  | nop => exact (guarded_of_none s _ rfl).symm
  | zeroize => exact (guarded_of_none s _ rfl).symm
  | _ =>
    refine guarded_congr s _ ?_
    simp [errorChecks, lockCheck, configCheck, keyCheck, nonceCheck, countCheck, wholeChecks, blockChecks,
      rangeCheck, overlapCheck, engineLevel_eq, opcodeNumber, Instr.wellFormed, legalCount, legalRotate, Instr.isConfig, Instr.readsKey,
      Instr.wholeOp, Instr.needsConfig]

/-- A command's next state is its first error's, or its effect's past all its checks. -/
theorem exec_next_checked {i : Instr} {s t : State} (h : exec i s = .next t) :
    (∃ e, t = s.raise e) ∨ (firstError (errorChecks i s) = none ∧ effectOf i s = .next t) := by
  rw [exec_eq_guarded] at h
  exact (guarded_next h).imp_left fun ⟨e, _, raised⟩ => ⟨e, raised⟩

theorem exec_next {i : Instr} {s t : State} (h : exec i s = .next t) :
    (∃ e, t = s.raise e) ∨ effectOf i s = .next t :=
  (exec_next_checked h).imp_right fun ⟨_, effect⟩ => effect

/-- A command that passes its checks has its effect. -/
theorem exec_of_passes {i : Instr} {s : State} (h : firstError (errorChecks i s) = none) : exec i s = effectOf i s :=
  (exec_eq_guarded i s).trans (guarded_of_none s _ h)

/-- A command that does not pass its checks raises the first that applies, and does nothing else (R282). -/
theorem exec_of_error {i : Instr} {s : State} {e : ErrCode} (h : firstError (errorChecks i s) = some e) :
    exec i s = .next (s.raise e) :=
  (exec_eq_guarded i s).trans (guarded_of_some s _ h)

/-! ## The effects that are not plain updates -/

theorem selfTest_eq_true : selfTest = true := by decide +kernel

/-- Settles O10: the self-test is a closed computation, which the kernel evaluates. -/
theorem selfTestPasses : Obligations.SelfTestPasses := by
  unfold Obligations.SelfTestPasses
  exact selfTest_eq_true

/-- The self-test passes, so CONFIG's effect is the decoded parameters and their diagnostics (R167, R169). -/
theorem configEffect_eq (s : State) (ro ts : BitVec 8) :
    configEffect s ro ts = { s.withDiagnostics ro ts with cfg := ⟨(decodeRounds ro).1, (decodeTagsel ts).1⟩ } := by
  rw [configEffect, if_pos selfTest_eq_true]

/-- CONFIG's effect writes CFG and the two diagnostics, and nothing else. -/
theorem effectOf_config_next {ro ts : BitVec 8} {s t : State} (h : effectOf (.config ro ts) s = .next t) :
    t = { s with
      cfg := ⟨(decodeRounds ro).1, (decodeTagsel ts).1⟩
      rDefaulted := (decodeRounds ro).2
      aDefaulted := (decodeTagsel ts).2 } :=
  (Host.Outcome.next.inj h).symm.trans (configEffect_eq s ro ts)

theorem onInputs_next {s t : State} {k : List Word → List Word → List Word → State} (h : onInputs s k = .next t) :
    ∃ hd p tr, readInputs s = .ok (hd, p, tr) ∧ t = k hd p tr := by
  rcases onInputs_cases s k with ⟨hd, p, tr, read, next⟩ | ⟨b, -, fault⟩
  · exact ⟨hd, p, tr, read, Host.Outcome.next.inj (h.symm.trans next)⟩
  · cases h.symm.trans fault

/-! ## Errors are precise (R281-R283) -/

/-- No effect writes STATUS.ERR. -/
theorem effectOf_err {i : Instr} {s t : State} (h : effectOf i s = .next t) : t.err = s.err := by
  cases i with
  | config ro ts => rw [effectOf_config_next h]
  | encrypt => obtain ⟨_, _, _, -, rfl⟩ := onInputs_next h; rfl
  | decrypt => obtain ⟨_, _, _, -, rfl⟩ := onInputs_next h; rfl
  | _ => cases h; rfl

/-- A table of causes and a list of checks, row by row the same. -/
abbrev RowsAgree (table : List (Prop × ErrCode)) (checks : List (Bool × ErrCode)) : Prop :=
  List.Forall₂ (fun row check => (check.1 = true ↔ row.1) ∧ check.2 = row.2) table checks

/-- R283: the first row whose cause applies is the first check that applies. -/
theorem firstApplies_iff {table : List (Prop × ErrCode)} {checks : List (Bool × ErrCode)} (h : RowsAgree table checks)
    (o : Option ErrCode) : FirstApplies table o ↔ firstError checks = o := by
  induction h with
  | nil => exact eq_comm
  | @cons row check table checks agree _ ih =>
    obtain ⟨cause, e⟩ := row
    obtain ⟨applies, e'⟩ := check
    obtain ⟨iff, rfl⟩ : (applies = true ↔ cause) ∧ e' = e := agree
    rw [FirstApplies, firstError_cons, ih, ← iff]
    cases applies <;> simp [eq_comm]

theorem errorTable_agrees (i : Instr) (s : State) : RowsAgree (errorTable i s) (errorChecks i s) := by
  simp [RowsAgree, errorTable, errorChecks, keyCheck, nonceCheck, rangeCheck_iff, overlapCheck_iff, notConfigured_iff,
    -ne_eq]

/-- Settles O34: the table is the list of checks, and no effect writes STATUS.ERR. -/
theorem firstErrorIsReported : Obligations.FirstErrorIsReported := by
  unfold Obligations.FirstErrorIsReported
  refine fun i s => ⟨fun e first => ?_, fun none_applies t h => ?_, fun t h changed => ?_⟩
  · exact exec_of_error ((firstApplies_iff (errorTable_agrees i s) _).mp first)
  · have passes := (firstApplies_iff (errorTable_agrees i s) _).mp none_applies
    exact effectOf_err ((exec_of_passes passes).symm.trans h)
  · rcases exec_next h with ⟨e, rfl⟩ | effect
    · rfl
    · exact absurd (effectOf_err effect) changed

end Sys2Proof.Machine
end

section
/-! PROOFS. What the commands complete with and what they leave as it is: the small commands (spec/40_permutation.md,
spec/41_init.md, spec/44_operations.md), locked mode (spec/60_exceptions.md R297) and the writers of each register
(spec/10_state.md R28-R45). -/

namespace Sys2Proof.Machine

/-! ## The permutation commands, STATE_INIT, CONFIG, NOP and ZEROIZE -/

/-- ROTR is the library's rotation (R131). -/
theorem rotr_eq_rotateRight (a : Word) {r : Nat} (h : r < 32) : rotr a r = a.rotateRight r := by
  simp [rotr, BitVec.rotateRight, BitVec.rotateRightAux, Nat.mod_eq_of_lt h]

/-- Settles O6: with the lock off only PERM_ROTR's own check is left. -/
theorem permHAndPermRotrComplete : Obligations.PermHAndPermRotrComplete := by
  unfold Obligations.PermHAndPermRotrComplete
  refine fun s unlocked => ⟨?_, fun r legal => ?_, ?_⟩
  · exact guarded_of_none s _ (by simp [lockCheck, unlocked])
  · rw [← rotr_eq_rotateRight s.opa r.isLt]
    exact guarded_of_none s _ (by simp [lockCheck, unlocked, legal])
  · exact guarded_of_some s _ (by simp [lockCheck, unlocked])

/-- Settles O7: PERM_G's only check is the lock. -/
theorem permGCompletes : Obligations.PermGCompletes := by
  unfold Obligations.PermGCompletes
  exact fun s a b c d unlocked => guarded_of_none s _ (by simp [lockCheck, unlocked])

theorem roundsOf_of_ne_zero {nr : BitVec 6} (s : State) (h : nr ≠ 0#6) : roundsOf nr s = nr.toNat := if_neg h

theorem roundsOf_zero (s : State) : roundsOf 0#6 s = s.cfg.r.toNat := if_pos rfl

/-- Settles O8: the configuration is checked only when its round count is used. -/
theorem permFCompletes : Obligations.PermFCompletes := by
  unfold Obligations.PermFCompletes
  refine fun s nr unlocked => ⟨fun explicit => ?_, fun configured => ?_⟩
  · rw [← roundsOf_of_ne_zero s explicit]
    exact guarded_of_none s _ (by simp [lockCheck, unlocked, explicit])
  · rw [← roundsOf_zero s]
    exact guarded_of_none s _ (by simp [lockCheck, unlocked, notConfigured_of_isConfigured configured])

theorem exec_stateInit {s : State} (unlocked : s.dbgLock = false) (key : s.keyValid = 0b1111#4)
    (nonce : s.nonceValid = 0b11#2) (configured : s.isConfigured) :
    exec .stateInit s = .next { s with st := initState s.key s.nonce s.cfg, opOpen := true } :=
  guarded_of_none s _ (by
    simp [lockCheck, keyCheck, nonceCheck, configCheck, unlocked, key, nonce, notConfigured_of_isConfigured configured])

/-- Settles O12: the checks of STATE_INIT are the hypotheses, and its effect is Init. -/
theorem stateInitCompletes : Obligations.StateInitCompletes := by
  unfold Obligations.StateInitCompletes
  exact fun s unlocked key nonce configured => exec_stateInit unlocked key nonce configured

theorem decodeRounds_eq (ro : BitVec 8) :
    decodeRounds ro = (if 1 ≤ ro.toNat ∧ ro.toNat ≤ 63 then BitVec.ofNat 6 ro.toNat else 4,
      !decide (1 ≤ ro.toNat ∧ ro.toNat ≤ 63)) := by
  rw [decodeRounds, BitVec.ofNat_toNat]
  split <;> simp [*]

theorem decodeTagsel_eq (ts : BitVec 8) :
    decodeTagsel ts = (if 1 ≤ ts.toNat ∧ ts.toNat ≤ 10 then BitVec.ofNat 9 (32 * ts.toNat) else 128,
      !decide (1 ≤ ts.toNat ∧ ts.toNat ≤ 10)) := by
  rw [decodeTagsel]
  split <;> simp [*]

/-- Settles O11: the sequence check, then the decoded fields. -/
theorem configCompletes : Obligations.ConfigCompletes := by
  unfold Obligations.ConfigCompletes
  refine fun s ro ts => ⟨fun closed => ?_, fun opened => ?_⟩
  · have passes : exec (.config ro ts) s = .next (configEffect s ro ts) := guarded_of_none s _ (by simp [closed])
    rw [passes, configEffect_eq, State.withDiagnostics, decodeRounds_eq, decodeTagsel_eq]
  · exact guarded_of_some s _ (by simp [opened])

/-- Settles O33: neither command checks anything. -/
theorem nopAndZeroizeComplete : Obligations.NopAndZeroizeComplete := by
  unfold Obligations.NopAndZeroizeComplete
  exact fun s => ⟨rfl, _, rfl, by simp, by simp, by simp, by simp, rfl⟩

/-! ## Locked mode and the other commands (R297) -/

/-- The state with CTRL.DBG_LOCK at a given value. -/
def State.withLock (b : Bool) (s : State) : State := { s with dbgLock := b }

/-- An answer with its next state, if it has one, changed by `f`. -/
def mapNext (f : State → State) (a : Answer) : Answer :=
  match a with
  | .next t => .next (f t)
  | .fault r => .fault r
  | .refused r => .refused r

theorem guarded_withLock (b : Bool) (cs : List (Bool × ErrCode)) (s : State) (k : Answer) :
    guarded cs (s.withLock b) (mapNext (State.withLock b) k) = mapNext (State.withLock b) (guarded cs s k) := by
  unfold guarded
  split <;> rfl

/-- A whole operation reads its inputs without regard to the lock, so it answers alike if its effect does. -/
theorem onInputs_withLock (b : Bool) (s : State) (k : State → List Word → List Word → List Word → State)
    (hk : ∀ h p t, k (s.withLock b) h p t = (k s h p t).withLock b) :
    onInputs (s.withLock b) (k (s.withLock b)) = mapNext (State.withLock b) (onInputs s (k s)) := by
  have same_inputs : readInputs (s.withLock b) = readInputs s := rfl
  rcases onInputs_cases s (k s) with ⟨h, p, t, read, next⟩ | ⟨a, read, fault⟩
  · rw [onInputs_of_ok _ (same_inputs.trans read), next, hk]
    rfl
  · rw [onInputs_of_error _ (same_inputs.trans read), fault]
    rfl

/-- R297: outside the engine-level commands nothing depends on the lock. -/
theorem exec_withLock {i : Instr} (b : Bool) (s : State) (h : i.engineLevel = false) :
    exec i (s.withLock b) = mapNext (State.withLock b) (exec i s) := by
  have same_checks : errorChecks i (s.withLock b) = errorChecks i s := by
    unfold errorChecks
    rw [h]
    rfl
  have same_effect : effectOf i (s.withLock b) = mapNext (State.withLock b) (effectOf i s) := by
    cases i with
    | nop => rfl
    | zeroize => rfl
    | config ro ts =>
      change Host.Outcome.next _ = Host.Outcome.next _
      rw [configEffect_eq, configEffect_eq]
      rfl
    | encrypt => exact onInputs_withLock b s encryptEffect fun _ _ _ => rfl
    | decrypt => exact onInputs_withLock b s decryptEffect fun _ _ _ => rfl
    | _ => exact absurd h (by simp [engineLevel_eq, Laws.opcodeNumber])
  rw [exec_eq_guarded, exec_eq_guarded, same_checks, same_effect, guarded_withLock]

/-- Settles O36: the answer at either value of the lock is the same answer with the lock put in. -/
theorem lockDoesNotTouchOtherCommands : Obligations.LockDoesNotTouchOtherCommands := by
  unfold Obligations.LockDoesNotTouchOtherCommands
  refine fun i s b other => ⟨fun t h => ?_, fun r h => ?_⟩
  · exact (exec_withLock b s other).trans (by rw [h]; rfl)
  · exact (exec_withLock b s other).trans (by rw [h]; rfl)

/-! ## The writers of each register -/

/-- Settles O38: neither a raised error nor any effect writes these. -/
theorem commandsKeepHostRegisters : Obligations.CommandsKeepHostRegisters := by
  unfold Obligations.CommandsKeepHostRegisters
  intro i s t h
  rcases exec_next h with ⟨e, rfl⟩ | effect
  · simp
  · cases i with
    | config ro ts => simp [effectOf_config_next effect]
    | encrypt => obtain ⟨_, _, _, -, rfl⟩ := onInputs_next effect; simp [encryptEffect, Instr.wholeOp]
    | decrypt =>
      obtain ⟨_, _, _, -, rfl⟩ := onInputs_next effect
      simp [decryptEffect, Instr.wholeOp, apply_ite Memory.top]
    | _ => cases effect; simp

/-- Settles O39: a raised error writes none of these, and an effect only those that its command is named for. -/
theorem registersKeepTheirWriters : Obligations.RegistersKeepTheirWriters := by
  unfold Obligations.RegistersKeepTheirWriters
  intro i s t h
  rcases exec_next h with ⟨e, rfl⟩ | effect
  · simp
  · cases i with
    | config ro ts => simp [effectOf_config_next effect, Instr.isConfig]
    | encrypt =>
      obtain ⟨_, _, _, -, rfl⟩ := onInputs_next effect
      simp [encryptEffect, Instr.wholeOp, Instr.isConfig]
    | decrypt =>
      obtain ⟨_, _, _, -, rfl⟩ := onInputs_next effect
      simp [decryptEffect, Instr.wholeOp, Instr.isConfig]
    | _ => cases effect; simp [Instr.isConfig]

end Sys2Proof.Machine
end

section
/-! PROOFS. The permutation core (spec/40_permutation.md): H and ROTR bit by bit, a quarter-round as eight updates of one word
each, the freedom of the schedule, and the injectivity of F; with it, what Init separates
(spec/41_init.md). -/

namespace Sys2Proof.Machine

/-! ## H and ROTR -/

@[simp] theorem mixH_zero_right (a : Word) : mixH a 0#32 = a := by simp [mixH]

theorem mixH_comm (a b : Word) : mixH a b = mixH b a := by
  rw [mixH, mixH, BitVec.xor_comm a b, BitVec.and_comm a b]

/-- Each bit of H is that of a ⊕ b, with the AND of the bits below it (R130). -/
theorem mixH_getLsbD (a b : Word) {i : Nat} (hi : i < 32) :
    (mixH a b).getLsbD i =
      ((a.getLsbD i ^^ b.getLsbD i) ^^ (decide (i ≠ 0) && (a.getLsbD (i - 1) && b.getLsbD (i - 1)))) := by
  rw [mixH, BitVec.getLsbD_xor, BitVec.getLsbD_xor, BitVec.getLsbD_shiftLeft, BitVec.getLsbD_and]
  by_cases low : i = 0
  · simp [low]
  · simp [low, hi]

/-- Bit i of ROTR(a, r) is bit (i + r) mod 32 of a (R131). -/
theorem rotr_getLsbD (a : Word) {r i : Nat} (hr : r < 32) (hi : i < 32) :
    (rotr a r).getLsbD i = a.getLsbD ((i + r) % 32) := by
  rw [rotr_eq_rotateRight a hr, BitVec.getLsbD_rotateRight, Nat.mod_eq_of_lt hr]
  by_cases wraps : i < 32 - r
  · simp [wraps, Nat.add_comm i r, Nat.mod_eq_of_lt (show r + i < 32 by omega)]
  · simp [wraps, hi, show (i + r) % 32 = i - (32 - r) by omega]

@[simp] theorem rotr_zero_left (r : Nat) : rotr 0#32 r = 0#32 := by simp [rotr]

/-- Settles O1: both functions by their bits. -/
theorem hAndRotrBitByBit : Obligations.HAndRotrBitByBit := by
  unfold Obligations.HAndRotrBitByBit
  refine ⟨fun a b => ⟨rfl, fun i hi => mixH_getLsbD a b hi, mixH_zero_right a, mixH_comm a b, by decide⟩,
    fun a r _ hr => ⟨rfl, fun i hi => rotr_getLsbD a hr hi⟩⟩

/-! ## One line of a quarter-round -/

/-- S[x] <- f(S[x], S[y]): what each line of G does, with f either H or a rotated XOR (R132). -/
def updateBy (f : Word → Word → Word) (x y : Fin 16) (S : PState) : PState := S.set x (f S[x] S[y])

/-- The function of the lines of G that rotate. -/
def xorRotr (r : Nat) (u v : Word) : Word := rotr (u ^^^ v) r

@[simp] theorem updateBy_get_same (f : Word → Word → Word) (x y : Fin 16) (S : PState) :
    (updateBy f x y S)[x] = f S[x] S[y] := by simp [updateBy]

theorem updateBy_get_other (f : Word → Word → Word) {x i : Fin 16} (y : Fin 16) (S : PState) (h : i ≠ x) :
    (updateBy f x y S)[i] = S[i] := by
  have : x.val ≠ i.val := fun e => h (Fin.ext e.symm)
  simp [updateBy, this]

/-- Four lines of G; the two halves differ only in the amounts of their rotations (R132). -/
def halfG (r q : Nat) (a b c d : Fin 16) (S : PState) : PState :=
  updateBy (xorRotr q) b c (updateBy mixH c d (updateBy (xorRotr r) d a (updateBy mixH a b S)))

theorem quarterG_eq_halves (S : PState) (a b c d : Fin 16) :
    quarterG S a b c d = halfG 16 31 a b c d (halfG 8 11 a b c d S) := by
  have rotated (r : Nat) (T : PState) (x y : Fin 16) :
      updateBy (xorRotr r) x y T = T.set x (rotr (T[y] ^^^ T[x]) r) := by
    rw [BitVec.xor_comm]
    rfl
  simp only [halfG, rotated _ _ d a]
  rfl

/-- The four words after half a quarter-round on distinct indices. -/
theorem halfG_get (r q : Nat) {a b c d : Fin 16} (S : PState) (distinct : [a, b, c, d].Nodup) :
    (halfG r q a b c d S)[a] = mixH S[a] S[b] ∧
      (halfG r q a b c d S)[d] = rotr (mixH S[a] S[b] ^^^ S[d]) r ∧
      (halfG r q a b c d S)[c] = mixH S[c] (rotr (mixH S[a] S[b] ^^^ S[d]) r) ∧
      (halfG r q a b c d S)[b] = rotr (S[b] ^^^ mixH S[c] (rotr (mixH S[a] S[b] ^^^ S[d]) r)) q := by
  obtain ⟨⟨ab, ac, ad⟩, ⟨bc, bd⟩, cd⟩ : (a ≠ b ∧ a ≠ c ∧ a ≠ d) ∧ (b ≠ c ∧ b ≠ d) ∧ c ≠ d := by
    simpa using distinct
  simp only [halfG, updateBy_get_same, updateBy_get_other, ne_eq, ab, ac, ad, bc, bd, cd, ab.symm, ac.symm, ad.symm,
    bc.symm, bd.symm, cd.symm, not_false_eq_true, xorRotr, BitVec.xor_comm S[d], and_self]

/-! ## What a quarter-round leaves unchanged -/

theorem quarterG_get_other (S : PState) {a b c d i : Fin 16} (ha : i ≠ a) (hb : i ≠ b) (hc : i ≠ c) (hd : i ≠ d) :
    (quarterG S a b c d)[i] = S[i] := by
  simp only [quarterG_eq_halves, halfG, updateBy_get_other _ _ _ ha, updateBy_get_other _ _ _ hb, updateBy_get_other _ _ _ hc,
    updateBy_get_other _ _ _ hd]

/-- A line of G keeps the zero state. -/
theorem updateBy_zero {f : Word → Word → Word} (hf : f 0#32 0#32 = 0#32) (x y : Fin 16) :
    updateBy f x y (Vector.replicate 16 0) = Vector.replicate 16 0 := by
  refine Vector.ext fun i hi => ?_
  simp [updateBy, hf]

theorem quarterG_zero (a b c d : Fin 16) : quarterG (Vector.replicate 16 0) a b c d = Vector.replicate 16 0 := by
  have mix : mixH 0#32 0#32 = 0#32 := mixH_zero_right 0#32
  have rot (r : Nat) : xorRotr r 0#32 0#32 = 0#32 := by simp [xorRotr]
  simp only [quarterG_eq_halves, halfG, updateBy_zero mix, updateBy_zero (rot _)]

/-- On one index four times the last line XORs a word with itself. -/
theorem quarterG_aliased (S : PState) (a : Fin 16) : (quarterG S a a a a)[a] = 0 := by
  rw [quarterG_eq_halves, halfG, updateBy_get_same]
  simp [xorRotr]

/-- Settles O2: the eight lines are the definition, and each of them writes one word. -/
theorem quarterRoundOnItsFourWords : Obligations.QuarterRoundOnItsFourWords := by
  unfold Obligations.QuarterRoundOnItsFourWords
  refine fun S a b c d => ⟨fun i ha hb hc hd => quarterG_get_other S ha hb hc hd, quarterG_zero a b c d, ?_,
    quarterG_aliased S a, fun distinct => ?_⟩
  · intro S1 S2 S3 S4 S5 S6 S7 S8
    rfl
  · obtain ⟨firstA, firstD, firstC, firstB⟩ := halfG_get 8 11 S distinct
    obtain ⟨secondA, secondD, secondC, secondB⟩ := halfG_get 16 31 (halfG 8 11 a b c d S) distinct
    rw [quarterG_eq_halves, secondA, secondB, secondC, secondD, firstA, firstB, firstC, firstD]
    exact ⟨rfl, rfl, rfl, rfl⟩

/-! ## The rounds of F -/

theorem permuteF_add (m n : Nat) (S : PState) : permuteF (m + n) S = permuteF n (permuteF m S) := by
  induction m generalizing S with
  | zero => rw [Nat.zero_add]; rfl
  | succ m ih => rw [Nat.succ_add]; exact ih (roundF S)

theorem groupG_zero (g : Fin 16 × Fin 16 × Fin 16 × Fin 16) :
    groupG (Vector.replicate 16 0) g = Vector.replicate 16 0 := quarterG_zero _ _ _ _

theorem roundF_zero : roundF (Vector.replicate 16 0) = Vector.replicate 16 0 := by
  simp only [roundF, columns, diagonals, List.foldl, groupG_zero]

theorem permuteF_zero_state (n : Nat) : permuteF n (Vector.replicate 16 0) = Vector.replicate 16 0 := by
  induction n with
  | zero => rfl
  | succ n ih => rw [permuteF, roundF_zero, ih]

/-- Settles O3: by induction on the rounds. -/
theorem roundsOfFCompose : Obligations.RoundsOfFCompose := by
  unfold Obligations.RoundsOfFCompose
  exact fun m n S => ⟨rfl, rfl, permuteF_add m n S, permuteF_zero_state n⟩

/-! ## The schedule of a round is free (R135) -/

/-- Two states with the same words at the indices of `p`. -/
def AgreeOn (p : List (Fin 16)) (S T : PState) : Prop := ∀ i ∈ p, S[i] = T[i]

theorem AgreeOn.updateBy {p : List (Fin 16)} {S T : PState} {x y : Fin 16} (h : AgreeOn p S T) (hx : x ∈ p) (hy : y ∈ p)
    (f : Word → Word → Word) : AgreeOn p (updateBy f x y S) (updateBy f x y T) := by
  intro i hi
  by_cases same : i = x
  · subst same
    rw [updateBy_get_same, updateBy_get_same, h i hx, h y hy]
  · rw [updateBy_get_other f y S same, updateBy_get_other f y T same, h i hi]

/-- The four indices of a group. -/
def indicesOf (g : Fin 16 × Fin 16 × Fin 16 × Fin 16) : List (Fin 16) := [g.1, g.2.1, g.2.2.1, g.2.2.2]

theorem AgreeOn.halfG {p : List (Fin 16)} {S T : PState} {a b c d : Fin 16} (h : AgreeOn p S T) (ha : a ∈ p) (hb : b ∈ p)
    (hc : c ∈ p) (hd : d ∈ p) (r q : Nat) : AgreeOn p (halfG r q a b c d S) (halfG r q a b c d T) :=
  (((h.updateBy ha hb mixH).updateBy hd ha (xorRotr r)).updateBy hc hd mixH).updateBy hb hc (xorRotr q)

/-- A quarter-round reads only the words of its own indices. -/
theorem AgreeOn.groupG {g : Fin 16 × Fin 16 × Fin 16 × Fin 16} {S T : PState} (h : AgreeOn (indicesOf g) S T) :
    AgreeOn (indicesOf g) (groupG S g) (groupG T g) := by
  have ha : g.1 ∈ indicesOf g := by simp [indicesOf]
  have hb : g.2.1 ∈ indicesOf g := by simp [indicesOf]
  have hc : g.2.2.1 ∈ indicesOf g := by simp [indicesOf]
  have hd : g.2.2.2 ∈ indicesOf g := by simp [indicesOf]
  simp only [Machine.groupG, quarterG_eq_halves]
  exact (h.halfG ha hb hc hd 8 11).halfG ha hb hc hd 16 31

theorem groupG_get_other (S : PState) {g : Fin 16 × Fin 16 × Fin 16 × Fin 16} {i : Fin 16} (h : i ∉ indicesOf g) :
    (groupG S g)[i] = S[i] := by
  obtain ⟨ha, hb, hc, hd⟩ : i ≠ g.1 ∧ i ≠ g.2.1 ∧ i ≠ g.2.2.1 ∧ i ≠ g.2.2.2 := by simpa [indicesOf] using h
  exact quarterG_get_other S ha hb hc hd

/-- Quarter-rounds on groups without a common index commute. -/
theorem groupG_comm (S : PState) {g k : Fin 16 × Fin 16 × Fin 16 × Fin 16}
    (h : ∀ i ∈ indicesOf g, i ∉ indicesOf k) : groupG (groupG S g) k = groupG (groupG S k) g := by
  have untouched {g k : Fin 16 × Fin 16 × Fin 16 × Fin 16} (h : ∀ i ∈ indicesOf g, i ∉ indicesOf k) (i : Fin 16)
      (hi : i ∈ indicesOf g) : (groupG (groupG S g) k)[i] = (groupG (groupG S k) g)[i] := by
    have unread : AgreeOn (indicesOf g) S (groupG S k) := fun j hj => (groupG_get_other S (h j hj)).symm
    rw [groupG_get_other _ (h i hi), unread.groupG i hi]
  refine Vector.ext fun i hi => ?_
  change (groupG (groupG S g) k)[(⟨i, hi⟩ : Fin 16)] = (groupG (groupG S k) g)[(⟨i, hi⟩ : Fin 16)]
  by_cases inG : ⟨i, hi⟩ ∈ indicesOf g
  · exact untouched h _ inG
  · by_cases inK : ⟨i, hi⟩ ∈ indicesOf k
    · exact (untouched (fun j hk hg => h j hg hk) _ inK).symm
    · simp only [groupG_get_other _ inG, groupG_get_other _ inK]

/-- Groups of pairwise disjoint indices may run in any order. -/
theorem foldl_groupG_perm {gs ks : List (Fin 16 × Fin 16 × Fin 16 × Fin 16)} (S : PState) (h : ks.Perm gs)
    (apart : ∀ g ∈ gs, ∀ k ∈ gs, g = k ∨ ∀ i ∈ indicesOf g, i ∉ indicesOf k) :
    ks.foldl groupG S = gs.foldl groupG S := by
  refine h.foldl_eq' (fun g hg k hk T => ?_) S
  rcases apart g (h.subset hg) k (h.subset hk) with rfl | disjoint
  · rfl
  · exact (groupG_comm T disjoint)

/-- Settles O4: the columns share no index, and neither do the diagonals. -/
theorem roundScheduleIsFree : Obligations.RoundScheduleIsFree := by
  unfold Obligations.RoundScheduleIsFree
  intro S cols diags hc hd
  have columns_apart : ∀ g ∈ columns, ∀ k ∈ columns, g = k ∨ ∀ i ∈ indicesOf g, i ∉ indicesOf k := by decide
  have diagonals_apart : ∀ g ∈ diagonals, ∀ k ∈ diagonals, g = k ∨ ∀ i ∈ indicesOf g, i ∉ indicesOf k := by decide
  rw [foldl_groupG_perm S hc columns_apart, foldl_groupG_perm _ hd diagonals_apart]
  rfl

/-! ## F is injective -/

open Function (Injective)

/-- H with a fixed second argument loses nothing: its bits give back the first from bit 0 up. -/
theorem mixH_injective (b : Word) : Injective fun a => mixH a b := by
  intro a a' h
  have bits (i : Nat) : i < 32 → a.getLsbD i = a'.getLsbD i := by
    induction i with
    | zero =>
      intro hi
      have bit := congrArg (BitVec.getLsbD · 0) h
      simp only [mixH_getLsbD _ _ hi] at bit
      simpa using bit
    | succ i ih =>
      intro hi
      have bit := congrArg (BitVec.getLsbD · (i + 1)) h
      simp only [mixH_getLsbD _ _ hi, Nat.add_sub_cancel, ih (by omega)] at bit
      simpa using bit
  exact BitVec.eq_of_getLsbD_eq bits

theorem rotr_injective {r : Nat} (hr : r < 32) : Injective fun a => rotr a r := by
  intro a a' h
  refine BitVec.eq_of_getLsbD_eq fun i hi => ?_
  have bit := congrArg (BitVec.getLsbD · ((i + (32 - r)) % 32)) h
  simpa only [rotr_getLsbD _ hr (Nat.mod_lt _ (by decide)), show ((i + (32 - r)) % 32 + r) % 32 = i by omega] using bit

theorem xorRotr_injective {r : Nat} (hr : r < 32) (b : Word) : Injective fun a => xorRotr r a b := by
  intro a a' h
  exact (BitVec.xor_left_inj b).mp (rotr_injective hr h)

/-- A line of G that reads another word than it writes loses nothing. -/
theorem updateBy_injective {f : Word → Word → Word} (hf : ∀ b, Injective fun a => f a b) {x y : Fin 16} (hxy : y ≠ x) :
    Injective (updateBy f x y) := by
  intro S T h
  have others (i : Fin 16) (hi : i ≠ x) : S[i] = T[i] := by
    rw [← updateBy_get_other f y S hi, h, updateBy_get_other f y T hi]
  have written : S[x] = T[x] := by
    refine hf S[y] ?_
    change f S[x] S[y] = f T[x] S[y]
    rw [← updateBy_get_same f x y S, h, updateBy_get_same, others y hxy]
  refine Vector.ext fun i hi => ?_
  by_cases here : (⟨i, hi⟩ : Fin 16) = x
  · subst here; exact written
  · exact others ⟨i, hi⟩ here

theorem halfG_injective {r q : Nat} (hr : r < 32) (hq : q < 32) {a b c d : Fin 16} (distinct : [a, b, c, d].Nodup) :
    Injective (halfG r q a b c d) := by
  obtain ⟨⟨ab, -, ad⟩, ⟨bc, -⟩, cd⟩ : (a ≠ b ∧ a ≠ c ∧ a ≠ d) ∧ (b ≠ c ∧ b ≠ d) ∧ c ≠ d := by
    simpa using distinct
  have first := (updateBy_injective (xorRotr_injective hr) ad).comp (updateBy_injective mixH_injective ab.symm)
  have second := (updateBy_injective (xorRotr_injective hq) bc.symm).comp (updateBy_injective mixH_injective cd.symm)
  exact second.comp first

/-- A quarter-round on four distinct indices loses nothing. -/
theorem groupG_injective {g : Fin 16 × Fin 16 × Fin 16 × Fin 16} (h : (indicesOf g).Nodup) :
    Injective (groupG · g) := by
  intro S T same
  simp only [groupG, quarterG_eq_halves] at same
  exact halfG_injective (by decide) (by decide) h (halfG_injective (by decide) (by decide) h same)

theorem foldl_groupG_injective (gs : List (Fin 16 × Fin 16 × Fin 16 × Fin 16))
    (h : ∀ g ∈ gs, (indicesOf g).Nodup) : Injective fun S => gs.foldl groupG S := by
  induction gs with
  | nil => exact fun _ _ h => h
  | cons g gs ih =>
    have rest := ih fun k hk => h k (List.mem_cons_of_mem g hk)
    exact rest.comp (groupG_injective (h g List.mem_cons_self))

theorem columns_nodup : ∀ g ∈ columns, (indicesOf g).Nodup := by simp [columns, indicesOf]

theorem diagonals_nodup : ∀ g ∈ diagonals, (indicesOf g).Nodup := by simp [diagonals, indicesOf]

theorem roundF_injective : Injective roundF := by
  intro S T h
  exact foldl_groupG_injective columns columns_nodup (foldl_groupG_injective diagonals diagonals_nodup h)

theorem permuteF_injective (n : Nat) : Injective (permuteF n) := by
  induction n with
  | zero => exact fun _ _ h => h
  | succ n ih => exact ih.comp roundF_injective

/-- Settles O5: every line of every quarter-round is injective. -/
theorem permutationFIsInjective : Obligations.PermutationFIsInjective := by
  unfold Obligations.PermutationFIsInjective
  exact fun n S T h => permuteF_injective n h

/-! ## The parameter word and Init (spec/41_init.md) -/

/-- R164: no two of the four terms share a bit. -/
theorem paramWord_eq_or (c : Params) :
    paramWord c = (c.r.setWidth 32 <<< 26) ||| ((1 : Word) <<< 18) ||| ((32 : Word) <<< 10) ||| c.a.setWidth 32 := by
  apply BitVec.eq_of_getLsbD_eq
  intro k hk
  interval_cases k <;> simp [paramWord]

theorem paramWord_eq_fields (c : Params) :
    paramWord c = fieldAt c.r 26 ||| fieldAt 1#1 18 ||| fieldAt 1#1 15 ||| fieldAt c.a 0 := by
  simp [paramWord_eq_or, fieldAt]

/-- Settles O9: the fields do not overlap. -/
theorem parameterWordLayout : Obligations.ParameterWordLayout := by
  unfold Obligations.ParameterWordLayout
  refine ⟨fun c => ⟨rfl, paramWord_eq_or c, ?_⟩, by decide, by decide, by decide, by decide⟩
  simp [paramWord_eq_fields, BitVec.extractLsb'_or, extractLsb'_fieldAt_same, extractLsb'_fieldAt_apart]

/-- The constant XORed into S[15] can be XORed out again. -/
theorem xorLast_injective (d : Word) : Injective (xorLast · d) := by
  intro S T h
  refine Vector.ext fun i hi => ?_
  have word := congrArg (fun U : PState => U[i]) h
  by_cases last : i = 15
  · subst last
    simpa [xorLast_get] using word
  · simpa [xorLast_get, last] using word

/-- The loaded state holds the key and the nonce as they are (R170). -/
theorem loadState_inj {K K' : Vector Word 4} {N N' : Vector Word 2} {c : Params}
    (h : loadState K N c = loadState K' N' c) : K = K' ∧ N = N' := by
  have word (i : Nat) (hi : i < 16) : (loadState K N c)[i] = (loadState K' N' c)[i] := by rw [h]
  constructor
  · refine Vector.ext fun i hi => ?_
    have := word (4 + i) (by omega)
    interval_cases i <;> exact this
  · refine Vector.ext fun i hi => ?_
    have := word (1 + i) (by omega)
    interval_cases i <;> exact this

/-- Settles O13: nothing is lost on the way from the loaded state. -/
theorem initSeparatesKeysAndNonces : Obligations.InitSeparatesKeysAndNonces := by
  unfold Obligations.InitSeparatesKeysAndNonces
  intro c K K' N N' h
  exact loadState_inj (permuteF_injective _ (xorLast_injective 1 (permuteF_injective _ h)))

end Sys2Proof.Machine
end

section
/-! PROOFS. Padding and the phase processor (spec/42_phases.md): what each block of a padded sequence holds, what one block
command does, and that DecPhase undoes EncPhase. -/

namespace Sys2Proof.Machine

/-! ## Pad, block by block (R191, R192) -/

theorem padLength_eq (L : Nat) : padLength L = 10 * (L / 10 + 1) := by
  unfold padLength
  omega

@[simp] theorem pad_length (x : List Word) : (pad x).length = padLength x.length := by simp [pad]

theorem blockCount_eq (x : List Word) : blockCount x = x.length / 10 + 1 := by
  rw [blockCount, pad_length, padLength_eq]
  omega

theorem pad_getD (x : List Word) {i : Nat} (hi : i < padLength x.length) :
    (pad x).getD i 0 = (if i < x.length then x.getD i 0 else 0) |||
      (if i = x.length then 0x00000001 else 0) ||| (if i = padLength x.length - 1 then 0x80000000 else 0) := by
  simp [pad, hi]

@[simp] theorem genuineWords_length (x : List Word) (k : Nat) :
    (genuineWords x k).length = min 10 (x.length - 10 * k) := by simp [genuineWords]

theorem genuineWords_getD (x : List Word) (k : Nat) {j : Nat} (hj : j < 10) :
    (genuineWords x k).getD j 0 = x.getD (10 * k + j) 0 := by
  simp [genuineWords, hj]

/-- Block k of Pad(x): its g genuine words, then PadWord(g, j) (R192). -/
theorem blockAt_pad_get (x : List Word) {k j : Nat} (hk : k ≤ x.length / 10) (hj : j < 10) :
    (blockAt (pad x) k)[j] =
      if j < min 10 (x.length - 10 * k) then x.getD (10 * k + j) 0
      else padWord (min 10 (x.length - 10 * k)) j := by
  have inside : 10 * k + j < padLength x.length := by rw [padLength_eq]; omega
  rw [blockAt_get _ _ _ hj, pad_getD x inside, padLength_eq]
  by_cases genuine : 10 * k + j < x.length
  · simp [genuine, show j < min 10 (x.length - 10 * k) by omega, show ¬ 10 * k + j = x.length by omega,
      show ¬ 10 * k + j = 10 * (x.length / 10 + 1) - 1 by omega]
  · simp [genuine, padWord, show ¬ j < min 10 (x.length - 10 * k) by omega,
      show ¬ 10 ≤ min 10 (x.length - 10 * k) by omega,
      show 10 * k + j = x.length ↔ j = min 10 (x.length - 10 * k) by omega,
      show 10 * k + j = 10 * (x.length / 10 + 1) - 1 ↔ j = 9 by omega]

/-- Settles O14: the lengths by arithmetic, the words from those of each block. -/
theorem padSplitsIntoBlocks : Obligations.PadSplitsIntoBlocks := by
  unfold Obligations.PadSplitsIntoBlocks
  intro x
  have length := pad_length x
  refine ⟨length, ?_, ?_, ?_, blockCount_eq x, fun k j hk hj => ?_⟩
  · rw [length, padLength_eq]; omega
  · rw [length, padLength_eq]; omega
  · rw [length, padLength_eq]; omega
  · rw [blockAt_pad_get x hk hj]
    by_cases genuine : 10 * k + j < x.length
    · simp [genuine, show j < min 10 (x.length - 10 * k) by omega]
    · have lastBlock : min 10 (x.length - 10 * k) = x.length % 10 := by omega
      simp [genuine, padWord, lastBlock, show ¬ j < x.length % 10 by omega, show ¬ 10 ≤ x.length % 10 by omega]

/-! ## One block command (R210-R212) -/

theorem domOf_eq_twoPow (d : BitVec 2) : domOf d = BitVec.twoPow 32 d.toNat := rfl

theorem blockChecks_pass {s : State} {g : BitVec 4} (unlocked : s.dbgLock = false) (hg : g.toNat ≤ 10)
    (configured : s.isConfigured) : firstError (blockChecks g s) = none := by
  simp [blockChecks, lockCheck, countCheck, configCheck, unlocked, hg, notConfigured_of_isConfigured configured]

section
variable {s : State} {g : BitVec 4} (unlocked : s.dbgLock = false) (hg : g.toNat ≤ 10) (configured : s.isConfigured)
include unlocked hg configured

theorem exec_absorbBlk (d : BitVec 2) :
    exec (.absorbBlk g d) s = .next { s with
      st := absorbBlock s.st (operandBlock s.blk g.toNat) (domOf d) s.cfg.rounds } :=
  guarded_of_none s _ (blockChecks_pass unlocked hg configured)

theorem exec_encBlk (d : BitVec 2) :
    exec (.encBlk g d) s = .next { s with
      st := (encBlock s.st (operandBlock s.blk g.toNat) (domOf d) s.cfg.rounds).1
      blk := windowOf g.toNat (encBlock s.st (operandBlock s.blk g.toNat) (domOf d) s.cfg.rounds).2 } :=
  guarded_of_none s _ (blockChecks_pass unlocked hg configured)

theorem exec_decBlk (d : BitVec 2) :
    exec (.decBlk g d) s = .next { s with
      st := (decBlock s.st (operandBlock s.blk g.toNat) g.toNat (domOf d) s.cfg.rounds).1
      blk := windowOf g.toNat (decBlock s.st (operandBlock s.blk g.toNat) g.toNat (domOf d) s.cfg.rounds).2 } :=
  guarded_of_none s _ (blockChecks_pass unlocked hg configured)

end

/-- The words that ENC_BLK and DEC_BLK put out, in a window: genuine words of the state XORed with BLK, then zeros. -/
theorem windowOf_rate_get (S : PState) (blk : Block) {g j : Nat} (hj : j < 10) :
    (windowOf g ((rateOf (xorRate S (operandBlock blk g))).toList.take g))[j] =
      if j < g then S[j] ^^^ blk[j] else 0 := by
  rw [windowOf_get _ _ _ hj]
  by_cases genuine : j < g
  · simp [genuine, hj]
  · simp [genuine]

theorem windowOf_take (g : Nat) (ws : List Word) : windowOf g (ws.take g) = windowOf g ws := by
  refine Vector.ext fun j hj => ?_
  rw [windowOf_get _ _ _ hj, windowOf_get _ _ _ hj]
  by_cases genuine : j < g
  · simp [genuine]
  · simp [genuine]

/-- Settles O17: the mixed state is the absorbed one before F. -/
theorem absorbBlkCompletes : Obligations.AbsorbBlkCompletes := by
  unfold Obligations.AbsorbBlkCompletes
  intro s g d unlocked hg configured
  refine ⟨xorLast (xorRate s.st (operandBlock s.blk g.toNat)) (domOf d), fun j hj => ?_, fun j low hj => ?_, ?_,
    exec_absorbBlk unlocked hg configured d⟩
  · simp [xorLast_get, hj, show ¬ j = 15 by omega]
  · simp [xorLast_get, show ¬ j < 10 by omega, show ¬ j = 15 by omega]
  · simp [xorLast_get, domOf_eq_twoPow]

/-- Settles O18: the mixed state is ABSORB_BLK's, and BLK takes its rate. -/
theorem encBlkCompletes : Obligations.EncBlkCompletes := by
  unfold Obligations.EncBlkCompletes
  intro s g d unlocked hg configured
  refine ⟨xorLast (xorRate s.st (operandBlock s.blk g.toNat)) (domOf d), _, fun j hj => ?_, fun j low hj => ?_, ?_,
    fun j hj => ?_, exec_encBlk unlocked hg configured d⟩
  · simp [xorLast_get, hj, show ¬ j = 15 by omega]
  · simp [xorLast_get, show ¬ j < 10 by omega, show ¬ j = 15 by omega]
  · simp [xorLast_get, domOf_eq_twoPow]
  · rw [encBlock, ← windowOf_take, windowOf_rate_get s.st s.blk hj]

/-- Settles O19: the mixed state is the overwritten one before F. -/
theorem decBlkCompletes : Obligations.DecBlkCompletes := by
  unfold Obligations.DecBlkCompletes
  intro s g d unlocked hg configured
  refine ⟨xorLast (overwriteRate s.st (operandBlock s.blk g.toNat) g.toNat) (domOf d), _, fun j hj => ?_,
    fun j low hj => ?_, ?_, fun j hj => ?_, exec_decBlk unlocked hg configured d⟩
  · by_cases genuine : j < g.toNat <;> simp [xorLast_get, hj, genuine, show ¬ j = 15 by omega]
  · simp [xorLast_get, show ¬ j < 10 by omega, show ¬ j = 15 by omega]
  · simp [xorLast_get, domOf_eq_twoPow]
  · exact windowOf_rate_get s.st s.blk hj

/-- The block that a command takes from BLK depends on its genuine words only (R210). -/
theorem operandBlock_congr {b b' : Block} {g : Nat} (h : ∀ j, (hj : j < 10) → j < g → b[j] = b'[j]) :
    operandBlock b g = operandBlock b' g := by
  refine Vector.ext fun j hj => ?_
  rw [operandBlock_get _ _ _ hj, operandBlock_get _ _ _ hj]
  split
  · exact h j hj ‹_›
  · rfl

/-- Settles O20: BLK enters a block command only through its operand block. -/
theorem blockCommandsIgnorePadPositions : Obligations.BlockCommandsIgnorePadPositions := by
  unfold Obligations.BlockCommandsIgnorePadPositions
  intro s b g d unlocked hg configured same
  have block : operandBlock b g.toNat = operandBlock s.blk g.toNat := operandBlock_congr same
  refine ⟨?_, ?_, _, exec_absorbBlk unlocked hg configured d, ?_⟩
  · rw [exec_encBlk unlocked hg configured, exec_encBlk (s := { s with blk := b }) unlocked hg configured]
    simp only [block]
  · rw [exec_decBlk unlocked hg configured, exec_decBlk (s := { s with blk := b }) unlocked hg configured]
    simp only [block]
  · rw [exec_absorbBlk (s := { s with blk := b }) unlocked hg configured]
    simp only [block]

/-! ## The blocks of EncPhase and DecPhase (R202-R204) -/

/-- The words that EncPhase's block n puts out stay in place in the output. -/
theorem encBlocks_getD (p : List Word) (dom : Word) (R : Nat) (S : PState) {n m j : Nat} (hn : n < m) (hj : j < 10) :
    (encBlocks p dom R S m).2.getD (10 * n + j) 0 = (encBlocks p dom R S n).1[j] ^^^ (blockAt (pad p) n)[j] := by
  induction m with
  | zero => omega
  | succ m ih =>
    have before := encBlocks_length p dom R S m
    simp only [encBlocks, encBlock]
    by_cases last : n = m
    · subst last
      simp [before, hj]
    · rw [← ih (by omega)]
      simp [List.getElem?_append, before, show 10 * n + j < 10 * m by omega]

theorem encPhase_length (S : PState) (p : List Word) (dom : Word) (R : Nat) :
    (encPhase S p dom R).2.length = p.length := by
  unfold encPhase
  split
  · simp [*]
  · rw [List.length_take, encBlocks_length, blockCount_eq]
    omega

/-- Each word of the ciphertext is the payload's word XORed with the state's (R199, R202). -/
theorem encPhase_getD (S : PState) (p : List Word) (dom : Word) (R : Nat) {n j : Nat} (hj : j < 10)
    (h : 10 * n + j < p.length) :
    (encPhase S p dom R).2.getD (10 * n + j) 0 = (encBlocks p dom R S n).1[j] ^^^ p.getD (10 * n + j) 0 := by
  have nonempty : p ≠ [] := by rintro rfl; simp at h
  have block := blockAt_pad_get p (show n ≤ p.length / 10 by omega) hj
  rw [if_pos (by omega)] at block
  rw [← block, ← encBlocks_getD p dom R S (show n < blockCount p by rw [blockCount_eq]; omega) hj]
  simp [encPhase, nonempty, h]

/-- DecBlock on EncBlock's words undoes it (R204): the same state after, and the genuine words back. -/
theorem decBlock_of_encBlock {S : PState} {y z : Block} {g : Nat} (dom : Word) (R : Nat)
    (genuine : ∀ j, (hj : j < 10) → j < g → z[j] = S[j] ^^^ y[j])
    (padded : ∀ j, (hj : j < 10) → ¬ j < g → z[j] = y[j]) :
    decBlock S z g dom R = ((encBlock S y dom R).1, y.toList.take g) := by
  have same_state : overwriteRate S z g = xorRate S y := by
    refine Vector.ext fun i hi => ?_
    rw [overwriteRate_get _ _ _ _ hi, xorRate_get _ _ _ hi]
    by_cases rate : i < 10
    · by_cases hg : i < g
      · simp [rate, hg, genuine i rate hg]
      · simp [rate, hg, padded i rate hg]
    · simp [rate]
  have recovered : (rateOf (xorRate S z)).toList.take g = y.toList.take g := by
    refine List.ext_getElem (by simp) fun j hj _ => ?_
    obtain ⟨hg, h10⟩ : j < g ∧ j < 10 := by simpa using hj
    simp [h10, genuine j h10 hg]
  rw [decBlock, encBlock, same_state, recovered]

/-- A block's first g words are the sequence's. -/
theorem blockAt_pad_take (x : List Word) {k : Nat} (hk : k ≤ x.length / 10) :
    (blockAt (pad x) k).toList.take (min 10 (x.length - 10 * k)) = genuineWords x k := by
  refine List.ext_getElem (by simp) fun j hj _ => ?_
  obtain ⟨hg, h10⟩ : j < min 10 (x.length - 10 * k) ∧ j < 10 := by
    simp only [List.length_take, Vector.length_toList] at hj
    omega
  have word := blockAt_pad_get x hk h10
  rw [if_pos hg] at word
  simpa [genuineWords, List.getD_eq_getElem?_getD, show 10 * k + j < x.length by omega] using word

/-- After n blocks DecPhase on the ciphertext stands where EncPhase stood, with the payload's first words back. -/
theorem decBlocks_of_encPhase (S : PState) (p : List Word) (dom : Word) (R : Nat) {n : Nat} (hn : n ≤ blockCount p) :
    decBlocks (encPhase S p dom R).2 dom R S n = ((encBlocks p dom R S n).1, p.take (10 * n)) := by
  induction n with
  | zero => simp [decBlocks, encBlocks]
  | succ n ih =>
    have length := encPhase_length S p dom R
    have hk : n ≤ p.length / 10 := by rw [blockCount_eq] at hn; omega
    have step := decBlock_of_encBlock (S := (encBlocks p dom R S n).1) (y := blockAt (pad p) n)
      (z := blockAt (pad (encPhase S p dom R).2) n) (g := min 10 (p.length - 10 * n)) dom R
      (fun j hj hg => by
        rw [blockAt_pad_get _ (by rw [length]; exact hk) hj, blockAt_pad_get p hk hj, length, if_pos hg, if_pos hg]
        exact encPhase_getD S p dom R hj (by omega))
      (fun j hj hg => by
        rw [blockAt_pad_get _ (by rw [length]; exact hk) hj, blockAt_pad_get p hk hj, length, if_neg hg, if_neg hg])
    rw [decBlocks, ih (by omega), length]
    simp only [step, blockAt_pad_take p hk, encBlocks]
    rw [genuineWords, ← List.take_add, show 10 * n + 10 = 10 * (n + 1) by omega]

/-- R204: DecPhase undoes EncPhase, in words and in state. -/
theorem decPhase_of_encPhase (S : PState) (p : List Word) (dom : Word) (R : Nat) :
    decPhase S (encPhase S p dom R).2 dom R = ((encPhase S p dom R).1, p) := by
  have length := encPhase_length S p dom R
  have count : blockCount (encPhase S p dom R).2 = blockCount p := by rw [blockCount_eq, blockCount_eq, length]
  by_cases empty : p = []
  · subst empty
    rfl
  · have nonempty : (encPhase S p dom R).2 ≠ [] := fun e => empty (List.length_eq_zero_iff.mp (by rw [← length, e]; rfl))
    rw [decPhase, if_neg nonempty, count, decBlocks_of_encPhase S p dom R le_rfl]
    have enough : p.length ≤ 10 * blockCount p := by rw [blockCount_eq]; omega
    rw [List.take_of_length_le enough, encPhase, if_neg empty]

/-- Settles O15: block by block. -/
theorem decPhaseInvertsEncPhase : Obligations.DecPhaseInvertsEncPhase := by
  unfold Obligations.DecPhaseInvertsEncPhase
  intro S p dom R
  rw [decPhase_of_encPhase]
  exact ⟨rfl, rfl⟩

end Sys2Proof.Machine
end

section
/-! PROOFS. A phase run block by block from BLK (spec/42_phases.md R205), the tag (spec/43_tag.md) and the reference functions
(spec/44_operations.md R250-R253), which the component commands compute (R323). -/

namespace Sys2Proof.Machine

/-! ## One block command per block of a phase -/

theorem loadBlock_get (blk : Block) (ws : List Word) {j : Nat} (hj : j < 10) :
    (loadBlock blk ws)[j] = if j < ws.length then ws.getD j 0 else blk[j] := by simp [loadBlock]

/-- With its genuine words in BLK, a block command takes the block of the padded sequence (R205). -/
theorem operandBlock_loadBlock (blk : Block) (x : List Word) {k : Nat} (hk : k ≤ x.length / 10) :
    operandBlock (loadBlock blk (genuineWords x k)) (min 10 (x.length - 10 * k)) = blockAt (pad x) k := by
  refine Vector.ext fun j hj => ?_
  rw [operandBlock_get _ _ _ hj, loadBlock_get _ _ hj, genuineWords_length, genuineWords_getD x k hj,
    blockAt_pad_get x hk hj]
  split <;> rfl

/-- GCOUNT holds the number of genuine words of a block. -/
theorem gcount_toNat (x : List Word) (k : Nat) :
    (BitVec.ofNat 4 (genuineWords x k).length).toNat = min 10 (x.length - 10 * k) := by
  rw [genuineWords_length, BitVec.toNat_ofNat]
  omega

theorem gcount_le (x : List Word) (k : Nat) : (BitVec.ofNat 4 (genuineWords x k).length).toNat ≤ 10 := by
  rw [gcount_toNat]
  omega

theorem blockRun_succ {cmd : BitVec 4 → Instr} {x out : List Word} {s t u : State} {n : Nat}
    (before : blockRun cmd x s n = some (t, out))
    (command : exec (cmd (BitVec.ofNat 4 (genuineWords x n).length))
      { t with blk := loadBlock t.blk (genuineWords x n) } = .next u) :
    blockRun cmd x s (n + 1) = some (u, out ++ u.blk.toList) := by
  simp only [blockRun, before, command]

/-- A run of block commands follows `state` and keeps `good` of its output, if every command does. -/
theorem blockRun_follows {cmd : BitVec 4 → Instr} {x : List Word} {s : State} {state : Nat → PState}
    {good : Nat → List Word → Prop} (start : state 0 = s.st) (empty : good 0 [])
    (command : ∀ n blk out, n ≤ x.length / 10 → good n out → ∃ w : Block,
      exec (cmd (BitVec.ofNat 4 (genuineWords x n).length))
          { s with st := state n, blk := loadBlock blk (genuineWords x n) } =
        .next { s with st := state (n + 1), blk := w } ∧ good (n + 1) (out ++ w.toList))
    {n : Nat} (hn : n ≤ blockCount x) :
    ∃ blk out, blockRun cmd x s n = some ({ s with st := state n, blk := blk }, out) ∧ good n out := by
  induction n with
  | zero => exact ⟨s.blk, [], by rw [start]; rfl, empty⟩
  | succ n ih =>
    obtain ⟨blk, out, before, kept⟩ := ih (by omega)
    obtain ⟨w, next, kept'⟩ := command n blk out (by rw [blockCount_eq] at hn; omega) kept
    exact ⟨w, _, blockRun_succ before next, kept'⟩

/-- The genuine words of a window, read back from BLK. -/
theorem windowOf_toList_take {ws : List Word} {m : Nat} (h : min 10 m ≤ ws.length) :
    (windowOf (min 10 m) ws).toList.take m = ws.take (min 10 m) := by
  refine List.ext_getElem (by simp; omega) fun j hj hj' => ?_
  obtain ⟨hm, h10⟩ : j < m ∧ j < 10 := by simpa using hj
  have short : j < ws.length := by omega
  simp [hm, h10, short]

/-- ENC_BLK puts ten words in the window (R211). -/
theorem windowOf_toList_take_of_ten {ws : List Word} (m : Nat) (h : ws.length = 10) :
    (windowOf (min 10 m) ws).toList.take m = ws.take m := by
  rw [windowOf_toList_take (by omega), List.take_eq_take_iff]
  omega

/-- DEC_BLK puts the genuine words in the window (R212). -/
theorem windowOf_toList_take_of_genuine {ws : List Word} {m : Nat} (h : ws.length = min 10 m) :
    (windowOf (min 10 m) ws).toList.take m = ws := by
  rw [windowOf_toList_take h.ge, List.take_of_length_le h.le]

theorem encBlocks_succ_words (p : List Word) (dom : Word) (R : Nat) (S : PState) (n : Nat) :
    (encBlocks p dom R S (n + 1)).2 =
      (encBlocks p dom R S n).2 ++ (encBlock (encBlocks p dom R S n).1 (blockAt (pad p) n) dom R).2 := rfl

theorem decBlocks_succ_words (c : List Word) (dom : Word) (R : Nat) (S : PState) (n : Nat) :
    (decBlocks c dom R S (n + 1)).2 =
      (decBlocks c dom R S n).2 ++
        (decBlock (decBlocks c dom R S n).1 (blockAt (pad c) n) (min 10 (c.length - 10 * n)) dom R).2 := rfl

section
variable {s : State} (x : List Word) (d : BitVec 2) (unlocked : s.dbgLock = false) (configured : s.isConfigured)
include unlocked configured

/-- The first n blocks of AbsorbPhase, by ABSORB_BLK. -/
theorem absorbRun {n : Nat} (hn : n ≤ blockCount x) :
    ∃ blk out, blockRun (fun g => .absorbBlk g d) x s n =
      some ({ s with st := absorbBlocks x (domOf d) s.cfg.rounds s.st n, blk := blk }, out) ∧
        out.length = 10 * n := by
  refine blockRun_follows (state := fun n => absorbBlocks x (domOf d) s.cfg.rounds s.st n)
    (good := fun n out => out.length = 10 * n) rfl rfl (fun n blk out hk length => ?_) hn
  have command := exec_absorbBlk
    (s := { s with st := absorbBlocks x (domOf d) s.cfg.rounds s.st n, blk := loadBlock blk (genuineWords x n) })
    unlocked (gcount_le x n) configured d
  rw [gcount_toNat, operandBlock_loadBlock blk x hk] at command
  exact ⟨_, command, by simp [length]; omega⟩

/-- The first n blocks of EncPhase, by ENC_BLK: what BLK held after each is the phase's output so far. -/
theorem encRun {n : Nat} (hn : n ≤ blockCount x) :
    ∃ blk out, blockRun (fun g => .encBlk g d) x s n =
        some ({ s with st := (encBlocks x (domOf d) s.cfg.rounds s.st n).1, blk := blk }, out) ∧
      out.length = 10 * n ∧
      out.take x.length = (encBlocks x (domOf d) s.cfg.rounds s.st n).2.take x.length := by
  refine blockRun_follows (state := fun n => (encBlocks x (domOf d) s.cfg.rounds s.st n).1)
    (good := fun n out => out.length = 10 * n ∧
      out.take x.length = (encBlocks x (domOf d) s.cfg.rounds s.st n).2.take x.length)
    rfl ⟨rfl, rfl⟩ (fun n blk out hk kept => ?_) hn
  obtain ⟨length, same⟩ := kept
  have command := exec_encBlk
    (s := { s with st := (encBlocks x (domOf d) s.cfg.rounds s.st n).1, blk := loadBlock blk (genuineWords x n) })
    unlocked (gcount_le x n) configured d
  rw [gcount_toNat, operandBlock_loadBlock blk x hk] at command
  refine ⟨_, command, by simp [length]; omega, ?_⟩
  rw [encBlocks_succ_words, List.take_append, List.take_append, same, length, encBlocks_length,
    windowOf_toList_take_of_ten _ (by simp [encBlock])]

/-- The first n blocks of DecPhase, by DEC_BLK. -/
theorem decRun {n : Nat} (hn : n ≤ blockCount x) :
    ∃ blk out, blockRun (fun g => .decBlk g d) x s n =
        some ({ s with st := (decBlocks x (domOf d) s.cfg.rounds s.st n).1, blk := blk }, out) ∧
      out.length = 10 * n ∧ out.take x.length = (decBlocks x (domOf d) s.cfg.rounds s.st n).2 := by
  refine blockRun_follows (state := fun n => (decBlocks x (domOf d) s.cfg.rounds s.st n).1)
    (good := fun n out => out.length = 10 * n ∧ out.take x.length = (decBlocks x (domOf d) s.cfg.rounds s.st n).2)
    rfl ⟨rfl, List.take_nil⟩ (fun n blk out hk kept => ?_) hn
  obtain ⟨length, same⟩ := kept
  have command := exec_decBlk
    (s := { s with st := (decBlocks x (domOf d) s.cfg.rounds s.st n).1, blk := loadBlock blk (genuineWords x n) })
    unlocked (gcount_le x n) configured d
  rw [gcount_toNat, operandBlock_loadBlock blk x hk] at command
  refine ⟨_, command, by simp [length]; omega, ?_⟩
  rw [decBlocks_succ_words, List.take_append, same, length, windowOf_toList_take_of_genuine (by simp [decBlock])]

end

/-! ## The commands of a whole phase -/

theorem phaseRun_of_ne_nil (cmd : BitVec 4 → Instr) {x : List Word} (s : State) (h : x ≠ []) :
    phaseRun cmd x s = blockRun cmd x s (blockCount x) := by rw [phaseRun, if_neg h, blockCount_eq]

theorem phaseRun_nil (cmd : BitVec 4 → Instr) (s : State) : phaseRun cmd [] s = some (s, []) := rfl

section
variable {s : State} (x : List Word) (d : BitVec 2) (unlocked : s.dbgLock = false) (configured : s.isConfigured)
include unlocked configured

theorem phaseRun_absorb : ∃ blk out, phaseRun (fun g => .absorbBlk g d) x s =
    some ({ s with st := absorbPhase s.st x (domOf d) s.cfg.rounds, blk := blk }, out) := by
  by_cases empty : x = []
  · subst empty
    exact ⟨s.blk, [], phaseRun_nil _ s⟩
  · rw [phaseRun_of_ne_nil _ s empty, absorbPhase, if_neg empty]
    obtain ⟨blk, out, run, -⟩ := absorbRun x d unlocked configured le_rfl
    exact ⟨blk, out, run⟩

theorem phaseRun_enc : ∃ blk out, phaseRun (fun g => .encBlk g d) x s =
      some ({ s with st := (encPhase s.st x (domOf d) s.cfg.rounds).1, blk := blk }, out) ∧
    out.take x.length = (encPhase s.st x (domOf d) s.cfg.rounds).2 := by
  by_cases empty : x = []
  · subst empty
    exact ⟨s.blk, [], phaseRun_nil _ s, rfl⟩
  · rw [phaseRun_of_ne_nil _ s empty, encPhase, if_neg empty]
    obtain ⟨blk, out, run, -, same⟩ := encRun x d unlocked configured le_rfl
    exact ⟨blk, out, run, same⟩

theorem phaseRun_dec : ∃ blk out, phaseRun (fun g => .decBlk g d) x s =
      some ({ s with st := (decPhase s.st x (domOf d) s.cfg.rounds).1, blk := blk }, out) ∧
    out.take x.length = (decPhase s.st x (domOf d) s.cfg.rounds).2 := by
  by_cases empty : x = []
  · subst empty
    exact ⟨s.blk, [], phaseRun_nil _ s, rfl⟩
  · rw [phaseRun_of_ne_nil _ s empty, decPhase, if_neg empty]
    obtain ⟨blk, out, run, -, same⟩ := decRun x d unlocked configured le_rfl
    exact ⟨blk, out, run, same⟩

end

/-- Settles O16: the run of a non-empty sequence, for each of the three commands. -/
theorem blockCommandsRunThePhase : Obligations.BlockCommandsRunThePhase := by
  unfold Obligations.BlockCommandsRunThePhase
  intro s x d unlocked configured nonempty
  simp only [← phaseRun_of_ne_nil _ s nonempty]
  exact ⟨phaseRun_absorb x d unlocked configured, phaseRun_enc x d unlocked configured,
    phaseRun_dec x d unlocked configured⟩

/-! ## The tag (spec/43_tag.md) -/

theorem ctAcc_eq_zero_iff (t u : List Word) (n : Nat) : ctAcc t u n = 0 ↔ ∀ i, i < n → t.getD i 0 = u.getD i 0 := by
  induction n with
  | zero => simp [ctAcc]
  | succ n ih =>
    have or_zero (a b : Word) : a ||| b = 0 ↔ a = 0 ∧ b = 0 := BitVec.or_eq_zero_iff
    have xor_zero (a b : Word) : a ^^^ b = 0 ↔ a = b := BitVec.xor_eq_zero_iff
    rw [ctAcc, or_zero, ih, xor_zero, Nat.forall_lt_succ_right]

/-- R232: CtEq is equality of the first n words. -/
theorem ctEq_iff (t u : List Word) (n : Nat) : ctEq t u n = true ↔ ∀ i, i < n → t.getD i 0 = u.getD i 0 := by
  rw [ctEq, decide_eq_true_iff, ctAcc_eq_zero_iff]

theorem ctAcc_eq_foldl (t u : List Word) (n : Nat) :
    ctAcc t u n = (List.range n).foldl (fun acc i => acc ||| (t.getD i 0 ^^^ u.getD i 0)) 0 := by
  induction n with
  | zero => rfl
  | succ n ih => rw [ctAcc, ih, List.range_succ, List.foldl_append]; rfl

/-- Settles O21: the accumulator by induction on the number of words. -/
theorem ctEqComparesEveryWord : Obligations.CtEqComparesEveryWord := by
  unfold Obligations.CtEqComparesEveryWord
  exact fun t u n => ⟨ctEq_iff t u n, by rw [ctEq, ctAcc_eq_foldl]⟩

theorem exec_finalTag {s : State} (unlocked : s.dbgLock = false) (configured : s.isConfigured) :
    exec .finalTag s = .next { s with
      st := finalize s.st s.cfg.rounds
      tagOut := windowOf s.cfg.tagWords (tagOf (finalize s.st s.cfg.rounds) s.cfg)
      opOpen := false } :=
  guarded_of_none s _ (by simp [lockCheck, configCheck, unlocked, notConfigured_of_isConfigured configured])

/-- Settles O22: the window of the tag holds the first words of the finalized state. -/
theorem finalTagCompletes : Obligations.FinalTagCompletes := by
  unfold Obligations.FinalTagCompletes
  refine fun s unlocked configured => ⟨_, fun i hi => ?_, exec_finalTag unlocked configured⟩
  rw [windowOf_get _ _ _ hi, tagOf_getD _ _ _ (by omega)]
  by_cases tagWord : i < s.cfg.a.toNat / 32 <;> simp [tagWord, Params.tagWords, finalize, Params.rounds]

theorem exec_tagCompare {s : State} (unlocked : s.dbgLock = false) (configured : s.isConfigured) :
    exec .tagCompare s =
      .next { s with result := verdictOf (ctEq s.tagOut.toList s.tagIn.toList s.cfg.tagWords) } :=
  guarded_of_none s _ (by simp [lockCheck, configCheck, unlocked, notConfigured_of_isConfigured configured])

/-- Two windows compare equal when their first n words are equal; a window has ten. -/
theorem ctEq_windows_iff (b b' : Block) (n : Nat) :
    ctEq b.toList b'.toList n = true ↔ ∀ i, (h : i < 10) → i < n → b[i] = b'[i] := by
  rw [ctEq_iff]
  constructor
  · intro h i hi hn
    simpa [hi] using h i hn
  · intro h i hn
    by_cases hi : i < 10
    · simpa [hi] using h i hi hn
    · simp [hi]

/-- Settles O23: the comparison is that of the two windows. -/
theorem tagCompareCompletes : Obligations.TagCompareCompletes := by
  unfold Obligations.TagCompareCompletes
  refine fun s unlocked configured => ⟨fun equal => ?_, fun differ => ?_⟩
  · have eq := (ctEq_windows_iff s.tagOut s.tagIn s.cfg.tagWords).mpr equal
    rw [exec_tagCompare unlocked configured, eq]
    rfl
  · have notEq := Bool.eq_false_iff.mpr (mt (ctEq_windows_iff s.tagOut s.tagIn s.cfg.tagWords).mp differ)
    rw [exec_tagCompare unlocked configured, notEq]
    rfl

/-! ## The reference functions (spec/44_operations.md R250-R253) -/

/-- The tag that DecryptFn computes (R251). -/
def decryptTag (K : Vector Word 4) (N : Vector Word 2) (h ct t : List Word) (c : Params) : List Word :=
  let payload := decPhase (absorbPhase (initState K N c) h (domH ct t) c.rounds) ct (domP t) c.rounds
  tagOf (finalize (absorbPhase payload.1 t domT c.rounds) c.rounds) c

/-- The words that DecryptFn recovers, before the verdict (R251). -/
def recoveredWords (K : Vector Word 4) (N : Vector Word 2) (h ct t : List Word) (c : Params) : List Word :=
  (decPhase (absorbPhase (initState K N c) h (domH ct t) c.rounds) ct (domP t) c.rounds).2

/-- DecryptFn gives the recovered words if the tag it computes is the supplied one, else nothing. -/
theorem decryptFn_eq (K : Vector Word 4) (N : Vector Word 2) (h ct t u : List Word) (c : Params) :
    decryptFn K N h ct t u c =
      if ctEq (decryptTag K N h ct t c) u c.tagWords then (recoveredWords K N h ct t c, true) else ([], false) := rfl

theorem decryptFn_snd (K : Vector Word 4) (N : Vector Word 2) (h ct t u : List Word) (c : Params) :
    (decryptFn K N h ct t u c).2 = ctEq (decryptTag K N h ct t c) u c.tagWords := by
  rw [decryptFn_eq]
  split <;> simp [*]

/-- Settles O24: the flipped word differs from the computed tag's. -/
theorem tagBitFlipIsRejected : Obligations.TagBitFlipIsRejected := by
  unfold Obligations.TagBitFlipIsRejected
  intro K N h ct t u p c k b hk length hb verified
  have accepted : ctEq (decryptTag K N h ct t c) u c.tagWords = true := by rw [← decryptFn_snd, verified]
  have tag_word := (ctEq_iff _ _ _).mp accepted k (length ▸ hk)
  have rejected : ¬ ctEq (decryptTag K N h ct t c) (u.set k (u[k] ^^^ BitVec.twoPow 32 b)) c.tagWords = true := by
    intro flipped
    have flipped_word := ((ctEq_iff _ _ _).mp flipped k (length ▸ hk)).symm.trans tag_word
    have bit := congrArg (BitVec.getLsbD · b) flipped_word
    simp [hk, hb] at bit
  rw [decryptFn_eq, if_neg rejected]

theorem ctEq_self (t : List Word) (n : Nat) : ctEq t t n = true := (ctEq_iff t t n).mpr fun _ _ => rfl

/-- The domain constants ask only whether a sequence is empty (R194). -/
theorem domH_congr {p p' : List Word} (t : List Word) (h : p'.length = p.length) : domH p' t = domH p t := by
  have same : p' = [] ↔ p = [] := by rw [← List.length_eq_zero_iff, h, List.length_eq_zero_iff]
  simp only [domH, ne_eq, same]

theorem encryptFn_length (K : Vector Word 4) (N : Vector Word 2) (h p t : List Word) (c : Params) :
    (encryptFn K N h p t c).1.length = p.length := encPhase_length _ p _ _

/-- DecryptFn on EncryptFn's ciphertext recovers the payload and computes the same tag. -/
theorem decrypt_of_encryptFn (K : Vector Word 4) (N : Vector Word 2) (h p t : List Word) (c : Params) :
    recoveredWords K N h (encryptFn K N h p t c).1 t c = p ∧
      decryptTag K N h (encryptFn K N h p t c).1 t c = (encryptFn K N h p t c).2 := by
  have header := domH_congr t (encryptFn_length K N h p t c)
  have payload := decPhase_of_encPhase (absorbPhase (initState K N c) h (domH p t) c.rounds) p (domP t) c.rounds
  constructor
  · rw [recoveredWords, header]
    exact congrArg Prod.snd payload
  · rw [decryptTag, header]
    exact congrArg (fun r => tagOf (finalize (absorbPhase r.1 t domT c.rounds) c.rounds) c) payload

/-- Settles O25: the payload comes back and the tag is EncryptFn's own. -/
theorem decryptFnInvertsEncryptFn : Obligations.DecryptFnInvertsEncryptFn := by
  unfold Obligations.DecryptFnInvertsEncryptFn
  intro K N h p t c
  obtain ⟨words, tag⟩ := decrypt_of_encryptFn K N h p t c
  rw [decryptFn_eq, words, tag, if_pos (ctEq_self _ _)]

/-- A 9-bit A has at most 15 tag words, fewer than the state has words. -/
theorem tagWords_lt (c : Params) : c.tagWords < 16 := by
  unfold Params.tagWords
  omega

theorem tagOf_length (S : PState) (c : Params) : (tagOf S c).length = c.tagWords := by
  simp [tagOf, (tagWords_lt c).le]

theorem decBlocks_length (ct : List Word) (dom : Word) (R : Nat) (S : PState) (n : Nat) :
    (decBlocks ct dom R S n).2.length = min (10 * n) ct.length := by
  induction n with
  | zero => simp [decBlocks]
  | succ n ih =>
    simp only [decBlocks, decBlock, List.length_append, ih, List.length_take, Vector.length_toList]
    omega

theorem decPhase_length (S : PState) (ct : List Word) (dom : Word) (R : Nat) :
    (decPhase S ct dom R).2.length = ct.length := by
  unfold decPhase
  split
  · simp [*]
  · rw [decBlocks_length, blockCount_eq]
    omega

/-- Settles O26: the phases keep the payload's length. -/
theorem lengthInvariants : Obligations.LengthInvariants := by
  unfold Obligations.LengthInvariants
  intro K N h p t u c
  refine ⟨encryptFn_length K N h p t c, tagOf_length _ c, fun accepted => ?_, fun rejected => ?_⟩
  · rw [decryptFn_snd] at accepted
    rw [decryptFn_eq, if_pos accepted]
    exact decPhase_length _ p _ _
  · rw [decryptFn_snd] at rejected
    rw [decryptFn_eq, rejected]
    rfl

/-! ## The component commands compute the reference functions (R323) -/

/-- DSEL of a header block gives DomH (R109, R194). -/
theorem domOf_header (x t : List Word) : domOf (if x ≠ [] then 1 else if t ≠ [] then 2 else 3) = domH x t := by
  unfold domH
  split_ifs <;> rfl

/-- DSEL of a payload block gives DomP (R109, R194). -/
theorem domOf_payload (t : List Word) : domOf (if t ≠ [] then 2 else 3) = domP t := by
  unfold domP
  split_ifs <;> rfl

/-- The run of a host from the runs of its parts. -/
theorem hostOperation_of_parts {cmd : BitVec 4 → BitVec 2 → Instr} {h x t out₁ out₂ out₃ : List Word}
    {s opened hd pd td closed : State} (init : exec .stateInit s = .next opened)
    (header : phaseRun (fun g => .absorbBlk g (if x ≠ [] then 1 else if t ≠ [] then 2 else 3)) h opened =
      some (hd, out₁))
    (payload : phaseRun (fun g => cmd g (if t ≠ [] then 2 else 3)) x hd = some (pd, out₂))
    (trailer : phaseRun (fun g => .absorbBlk g 3) t pd = some (td, out₃))
    (final : exec .finalTag td = .next closed) : hostOperation cmd h x t s = some (closed, out₂) := by
  simp only [hostOperation, init, nextOf, Option.bind_eq_bind, Option.bind_some, header, payload, trailer, final]

/-- The machine within an open operation that started from `s`: its state words, BLK and OP_OPEN are new. -/
def State.during (s : State) (S : PState) (b : Block) : State := { s with st := S, blk := b, opOpen := true }

section
variable {s : State} (unlocked : s.dbgLock = false) (configured : s.isConfigured)
include unlocked configured

theorem absorb_during (S : PState) (b : Block) (x : List Word) (d : BitVec 2) :
    ∃ b' out, phaseRun (fun g => .absorbBlk g d) x (s.during S b) =
      some (s.during (absorbPhase S x (domOf d) s.cfg.rounds) b', out) :=
  phaseRun_absorb (s := s.during S b) x d unlocked configured

/-- The host's operation, for a payload command that runs the payload phase `phase`. -/
theorem hostOperation_of_payload (key : s.keyValid = 0b1111#4) (nonce : s.nonceValid = 0b11#2)
    {cmd : BitVec 4 → BitVec 2 → Instr} {phase : PState → PState × List Word} (h x t : List Word)
    (run : ∀ S b, ∃ b' out, phaseRun (fun g => cmd g (if t ≠ [] then 2 else 3)) x (s.during S b) =
      some (s.during (phase S).1 b', out) ∧ out.take x.length = (phase S).2) :
    let payload := phase (absorbPhase (initState s.key s.nonce s.cfg) h (domH x t) s.cfg.rounds)
    let final := finalize (absorbPhase payload.1 t domT s.cfg.rounds) s.cfg.rounds
    ∃ e out, hostOperation cmd h x t s = some (e, out) ∧ out.take x.length = payload.2 ∧
      e.tagOut = windowOf s.cfg.tagWords (tagOf final s.cfg) := by
  intro payload final
  have init := exec_stateInit unlocked key nonce configured
  obtain ⟨b₁, out₁, header⟩ := absorb_during unlocked configured (initState s.key s.nonce s.cfg) s.blk h
    (if x ≠ [] then 1 else if t ≠ [] then 2 else 3)
  rw [domOf_header] at header
  obtain ⟨b₂, out₂, middle, words⟩ := run (absorbPhase (initState s.key s.nonce s.cfg) h (domH x t) s.cfg.rounds) b₁
  obtain ⟨b₃, out₃, trailer⟩ := absorb_during unlocked configured payload.1 b₂ t 3
  have close := exec_finalTag (s := s.during (absorbPhase payload.1 t domT s.cfg.rounds) b₃) unlocked configured
  exact ⟨_, out₂, hostOperation_of_parts init header middle trailer close, words, rfl⟩

end

section
variable {s : State} (h x t : List Word) (unlocked : s.dbgLock = false) (key : s.keyValid = 0b1111#4)
  (nonce : s.nonceValid = 0b11#2) (configured : s.isConfigured)
include unlocked key nonce configured

/-- A host with ENC_BLK ends with EncryptFn's ciphertext in what BLK held and its tag in TAG_OUT. -/
theorem hostOperation_enc : ∃ e out, hostOperation .encBlk h x t s = some (e, out) ∧
    out.take x.length = (encryptFn s.key s.nonce h x t s.cfg).1 ∧
    e.tagOut = windowOf s.cfg.tagWords (encryptFn s.key s.nonce h x t s.cfg).2 :=
  hostOperation_of_payload unlocked configured key nonce (phase := fun S => encPhase S x (domP t) s.cfg.rounds) h x t
    fun S b => by
      rw [← domOf_payload]
      exact phaseRun_enc (s := s.during S b) x _ unlocked configured

/-- A host with DEC_BLK ends with the words that DecryptFn recovers in what BLK held, and the tag that DecryptFn
computes in TAG_OUT. -/
theorem hostOperation_dec : ∃ e out, hostOperation .decBlk h x t s = some (e, out) ∧
    out.take x.length = recoveredWords s.key s.nonce h x t s.cfg ∧
    e.tagOut = windowOf s.cfg.tagWords (decryptTag s.key s.nonce h x t s.cfg) :=
  hostOperation_of_payload unlocked configured key nonce (phase := fun S => decPhase S x (domP t) s.cfg.rounds) h x t
    fun S b => by
      rw [← domOf_payload]
      exact phaseRun_dec (s := s.during S b) x _ unlocked configured

end

/-- A legal configured A has at most ten tag words (R165). -/
theorem tagWords_le_ten {c : Params} (legal : c.legal) (hr : c.r ≠ 0#6) : c.tagWords ≤ 10 := by
  rcases legal with ⟨zero, -⟩ | ⟨-, -, -, ten⟩
  · exact absurd zero hr
  · exact ten

/-- Settles O27: the runs of the two hosts, and DecryptFn's verdict read from TAG_OUT. -/
theorem componentCommandsRunTheOperation : Obligations.ComponentCommandsRunTheOperation := by
  unfold Obligations.ComponentCommandsRunTheOperation
  intro s h x t u unlocked key nonce configured
  constructor
  · obtain ⟨e, out, run, words, tag⟩ := hostOperation_enc h x t unlocked key nonce configured
    refine ⟨e, out, run, words, fun i hi => ?_⟩
    rw [tag, windowOf_get _ _ _ hi]
    rfl
  · intro legal
    obtain ⟨e, out, run, words, tag⟩ := hostOperation_dec h x t unlocked key nonce configured
    have ten := tagWords_le_ten legal configured.1
    have verdict : ctEq (decryptTag s.key s.nonce h x t s.cfg) u s.cfg.tagWords = true ↔
        ∀ i, (hi : i < 10) → i < s.cfg.a.toNat / 32 → e.tagOut[i] = u.getD i 0 := by
      rw [ctEq_iff, tag]
      refine ⟨fun same i hi hn => ?_, fun same i hn => ?_⟩
      · rw [windowOf_get _ _ _ hi, if_pos (show i < s.cfg.tagWords from hn), same i hn]
      · have word := same i (by omega) hn
        rwa [windowOf_get _ _ _ (by omega), if_pos hn] at word
    refine ⟨e, out, run, fun same => ?_, fun differ => ?_⟩
    · rw [decryptFn_eq, if_pos (verdict.mpr same), words]
    · rw [decryptFn_eq, if_neg (mt verdict.mp differ)]

end Sys2Proof.Machine
end

section
/-! PROOFS. The whole operations on data memory (spec/44_operations.md R254-R259, spec/20_memory.md R90): ENCRYPT and DECRYPT
past their checks, the fault on an unwritten input word, and DECRYPT in place after ENCRYPT. -/

namespace Sys2Proof.Machine

/-! ## Regions of data memory -/

/-- The words of a sequence written over a region of its length are held there. -/
theorem writeWords_holds (m : Memory) (g : Region) {ws : List Word} (h : ws.length = g.len) :
    (m.writeWords g.addr ws).Holds g ws := by
  refine ⟨h, fun k hk => ?_⟩
  rw [get_writeWords, if_pos (by omega)]
  simp [hk]

/-- A write over a region leaves every word outside it. -/
theorem get_writeWords_outside (m : Memory) {g : Region} {ws : List Word} {a : Nat} (h : ws.length = g.len)
    (outside : g.holds a = false) : (m.writeWords g.addr ws).get a = m.get a := by
  rw [get_writeWords, if_neg]
  rw [h, ← holds_iff, outside]
  exact Bool.false_ne_true

/-- What a region holds depends on its own words only. -/
theorem Memory.Holds.congr {m m' : Memory} {g : Region} {ws : List Word} (h : m.Holds g ws)
    (same : ∀ a, g.holds a = true → m'.get a = m.get a) : m'.Holds g ws := by
  obtain ⟨length, words⟩ := h
  refine ⟨length, fun k hk => ?_⟩
  rw [same _ ((holds_iff g _).mpr (by omega)), words k hk]

/-- A region that holds words has no unwritten one. -/
theorem Memory.Holds.get_ne_none {m : Memory} {g : Region} {ws : List Word} {a : Nat} (h : m.Holds g ws)
    (inside : g.holds a = true) : m.get a ≠ none := by
  obtain ⟨length, words⟩ := h
  obtain ⟨low, high⟩ := (holds_iff g a).mp inside
  have word := words (a - g.addr) (by omega)
  rw [Nat.add_sub_cancel' low] at word
  simp [word]

theorem readRegion_ok_iff_holds (m : Memory) (g : Region) (ws : List Word) : m.readRegion g = .ok ws ↔ m.Holds g ws :=
  readRegion_ok_iff m g ws

/-- The inputs of a whole operation are what its three input regions hold (R254). -/
theorem readInputs_ok_iff_holds (s : State) (h p t : List Word) :
    readInputs s = .ok (h, p, t) ↔
      s.mem.Holds s.headerRegion h ∧ s.mem.Holds s.payloadRegion p ∧ s.mem.Holds s.trailerRegion t := by
  simp only [readInputs_ok_iff, readRegion_ok_iff_holds]

/-! ## ENCRYPT and DECRYPT past their checks -/

/-- No check of a whole operation applies in a state that is ready for it (R258). -/
theorem wholeChecks_pass {s : State} (h : s.WholeReady) : firstError (wholeChecks s) = none := by
  have range : (rangeCheck s).1 = false := Bool.eq_false_iff.mpr fun e => (rangeCheck_iff s).mp e h.inRange
  have overlap : (overlapCheck s).1 = false := Bool.eq_false_iff.mpr fun e => (overlapCheck_iff s).mp e h.clear
  change firstError [_, _, _, ((rangeCheck s).1, _), ((overlapCheck s).1, _)] = none
  simp [keyCheck, nonceCheck, configCheck, h.key, h.nonce, notConfigured_of_isConfigured h.configured, range, overlap]

section
variable {s : State} {h p t : List Word} (ready : s.WholeReady) (header : s.mem.Holds s.headerRegion h)
  (payload : s.mem.Holds s.payloadRegion p) (trailer : s.mem.Holds s.trailerRegion t)
include ready header payload trailer

theorem exec_encrypt : exec .encrypt s = .next (encryptEffect s h p t) :=
  (guarded_of_none s _ (wholeChecks_pass ready)).trans
    (onInputs_of_ok _ ((readInputs_ok_iff_holds s h p t).mpr ⟨header, payload, trailer⟩))

theorem exec_decrypt : exec .decrypt s = .next (decryptEffect s h p t) :=
  (guarded_of_none s _ (wholeChecks_pass ready)).trans
    (onInputs_of_ok _ ((readInputs_ok_iff_holds s h p t).mpr ⟨header, payload, trailer⟩))

end

/-- The output region has the payload's length (R255). -/
theorem outputRegion_len (s : State) : s.outputRegion.len = s.payloadRegion.len := rfl

/-- Settles O28: the effect, with the ciphertext as long as the output region. -/
theorem encryptCompletes : Obligations.EncryptCompletes := by
  unfold Obligations.EncryptCompletes
  intro s h p t ready header payload trailer
  have length : (encryptFn s.key s.nonce h p t s.cfg).1.length = s.outputRegion.len := by
    rw [encryptFn_length, payload.1, outputRegion_len]
  refine ⟨_, _, writeWords_top _ _ _, writeWords_holds s.mem s.outputRegion length,
    fun a outside => get_writeWords_outside s.mem length outside, fun i hi => ?_,
    exec_encrypt ready header payload trailer⟩
  rw [windowOf_get _ _ _ hi]
  rfl

/-- DECRYPT's effect when the tag verifies. -/
theorem decryptEffect_pass {s : State} {h c t p : List Word}
    (verified : decryptFn s.key s.nonce h c t (suppliedTag s) s.cfg = (p, true)) :
    decryptEffect s h c t = { s with
      mem := s.mem.writeWords s.outAddr.toNat p, tagOut := Vector.replicate 10 0, outLen := s.pldLen, result := .pass
      st := Vector.replicate 16 0, opOpen := false } := by
  simp only [decryptEffect, verified, if_true]
  rfl

/-- DECRYPT's effect when the tag does not verify: no word is written. -/
theorem decryptEffect_fail {s : State} {h c t p : List Word}
    (rejected : decryptFn s.key s.nonce h c t (suppliedTag s) s.cfg = (p, false)) :
    decryptEffect s h c t = { s with
      tagOut := Vector.replicate 10 0, outLen := 0, result := .fail, st := Vector.replicate 16 0, opOpen := false } := by
  simp only [decryptEffect, rejected, Bool.false_eq_true, if_false]
  rfl

/-- The plaintext that verifies is as long as the ciphertext (R253). -/
theorem length_of_decryptFn {K : Vector Word 4} {N : Vector Word 2} {h c t u p : List Word} {q : Params}
    (verified : decryptFn K N h c t u q = (p, true)) : p.length = c.length := by
  obtain ⟨-, -, accepted, -⟩ := lengthInvariants K N h c t u q
  rw [verified] at accepted
  exact accepted rfl

/-- Settles O29: the effect, with the plaintext as long as the output region. -/
theorem decryptCompletesWithPass : Obligations.DecryptCompletesWithPass := by
  unfold Obligations.DecryptCompletesWithPass
  intro s h c t p ready header payload trailer verified
  have length : p.length = s.outputRegion.len := by
    rw [length_of_decryptFn verified, payload.1, outputRegion_len]
  refine ⟨_, writeWords_top _ _ _, writeWords_holds s.mem s.outputRegion length,
    fun a outside => get_writeWords_outside s.mem length outside, ?_⟩
  rw [exec_decrypt ready header payload trailer, decryptEffect_pass verified]
  rfl

/-- Settles O30: the effect writes no word of memory. -/
theorem decryptCompletesWithFail : Obligations.DecryptCompletesWithFail := by
  unfold Obligations.DecryptCompletesWithFail
  intro s h c t p ready header payload trailer rejected
  rw [exec_decrypt ready header payload trailer, decryptEffect_fail rejected]

/-- Settles O32: the inputs cannot be read, and both operations stop at the word where the reading stopped. -/
theorem unwrittenInputFaults : Obligations.UnwrittenInputFaults := by
  unfold Obligations.UnwrittenInputFaults
  intro s a ready unwritten inside
  have passes := wholeChecks_pass ready
  rcases onInputs_cases s (encryptEffect s) with ⟨h, p, t, read, -⟩ | ⟨b, read, -⟩
  · obtain ⟨header, payload, trailer⟩ := (readInputs_ok_iff_holds s h p t).mp read
    rcases inside with inHeader | inPayload | inTrailer
    · exact absurd unwritten (header.get_ne_none inHeader)
    · exact absurd unwritten (payload.get_ne_none inPayload)
    · exact absurd unwritten (trailer.get_ne_none inTrailer)
  · obtain ⟨noValue, where_⟩ := readInputs_error read
    exact ⟨b, noValue, where_, (guarded_of_none s _ passes).trans (onInputs_of_error _ read),
      (guarded_of_none s _ passes).trans (onInputs_of_error _ read)⟩

/-! ## DECRYPT in place after ENCRYPT -/

/-- The tag in TAG_OUT, copied to TAG_IN, is the tag supplied to DECRYPT: a legal configuration's tag fits the window. -/
theorem windowOf_take_tag {K : Vector Word 4} {N : Vector Word 2} {h p t : List Word} {c : Params}
    (ten : c.tagWords ≤ 10) :
    (windowOf c.tagWords (encryptFn K N h p t c).2).toList.take c.tagWords = (encryptFn K N h p t c).2 := by
  have length : (encryptFn K N h p t c).2.length = c.tagWords := tagOf_length _ c
  refine List.ext_getElem (by simp [length, ten]) fun i hi _ => ?_
  obtain ⟨hn, -⟩ : i < c.tagWords ∧ i < 10 := by simpa using hi
  simp [hn, length]

/-- What ENCRYPT leaves is ready for a DECRYPT in place over its output region. -/
theorem ready_of_encryptEffect {s : State} {h p tr : List Word} (b : Block) (ready : s.WholeReady) :
    State.WholeReady { encryptEffect s h p tr with tagIn := b, pldAddr := s.outAddr } where
  key := ready.key
  nonce := ready.nonce
  configured := ready.configured
  inRange := by
    have inRange := ready.inRange
    have words : (encryptEffect s h p tr).mem.words = s.mem.words := by
      simp [Memory.words, encryptEffect]
    simp only [State.regionsInRange, State.regions, List.forall_mem_cons] at inRange ⊢
    obtain ⟨header, -, trailer, output, -⟩ := inRange
    simp only [words]
    exact ⟨header, output, trailer, output, List.forall_mem_nil _⟩
  clear := fun a inside => by
    obtain ⟨header, trailer, -⟩ := ready.clear a inside
    exact ⟨header, trailer, fun ne => absurd rfl ne⟩

/-- Settles O31: DECRYPT finds the same header and trailer, the ciphertext and the tag. -/
theorem decryptUndoesEncrypt : Obligations.DecryptUndoesEncrypt := by
  unfold Obligations.DecryptUndoesEncrypt
  intro s t h p tr ready legal header payload trailer encrypted
  obtain rfl := Host.Outcome.next.inj ((exec_encrypt ready header payload trailer).symm.trans encrypted)
  have length : (encryptFn s.key s.nonce h p tr s.cfg).1.length = s.outputRegion.len := by
    rw [encryptFn_length, payload.1, outputRegion_len]
  have outside (a : Nat) (ha : s.outputRegion.holds a = false) : (encryptEffect s h p tr).mem.get a = s.mem.get a :=
    get_writeWords_outside s.mem length ha
  have apart {g : Region} (hg : ∀ a, s.outputRegion.holds a = true → g.holds a = false) (a : Nat)
      (ha : g.holds a = true) : (encryptEffect s h p tr).mem.get a = s.mem.get a :=
    outside a (Bool.eq_false_iff.mpr fun inOutput => by simp [hg a inOutput] at ha)
  have verified := decryptFnInvertsEncryptFn s.key s.nonce h p tr s.cfg
  rw [← windowOf_take_tag (tagWords_le_ten legal ready.configured.1)] at verified
  obtain ⟨m, -, output, frame, decrypted⟩ := decryptCompletesWithPass
    { encryptEffect s h p tr with tagIn := (encryptEffect s h p tr).tagOut, pldAddr := s.outAddr } h _ tr p
    (ready_of_encryptEffect _ ready)
    (header.congr (apart fun a ha => (ready.clear a ha).1))
    (writeWords_holds s.mem s.outputRegion length)
    (trailer.congr (apart fun a ha => (ready.clear a ha).2.1))
    verified
  exact ⟨_, decrypted, rfl, rfl, rfl, output, fun a ha => (frame a ha).trans (outside a ha)⟩

end Sys2Proof.Machine
end

section
/-! PROOFS. The invariant (spec/41_init.md R165, spec/70_reset_and_hazards.md R319, spec/43_tag.md R234): a command keeps it from
acceptance to completion, and so does every act of the host. -/

namespace Sys2Proof.Machine

/-! ## What a command that passes its checks has found -/

/-- What the checks of `errorChecks` establish for the commands of each class (R281). -/
theorem needs_of_passes {i : Instr} {s : State} (h : firstError (errorChecks i s) = none) :
    (i.isConfig = true → s.opOpen = false) ∧
      (i.readsKey = true → s.keyValid = 0b1111#4 ∧ s.nonceValid = 0b11#2) ∧
      (i.needsConfig = true → s.isConfigured) ∧ (i.wholeOp = true → s.regionsInRange) := by
  have clear := applies_of_firstError_none h
  simp only [errorChecks, List.forall_mem_cons, Bool.and_eq_false_imp] at clear
  obtain ⟨-, -, sequence, key, nonce, config, range, -, -⟩ := clear
  refine ⟨sequence, fun reads => ⟨?_, ?_⟩, fun needs => ?_, fun whole => ?_⟩
  · simpa [keyCheck] using key reads
  · simpa [nonceCheck] using nonce reads
  · exact not_not.mp (mt (notConfigured_iff s).mpr (by simp [config needs]))
  · exact not_not.mp (mt (rangeCheck_iff s).mpr (by simp [range whole]))

/-! ## The clauses of the invariant along an effect -/

theorem decodeRounds_bounds (ro : BitVec 8) :
    1 ≤ (decodeRounds ro).1.toNat ∧ (decodeRounds ro).1.toNat ≤ 63 := by
  unfold decodeRounds
  split
  · rw [BitVec.toNat_setWidth, Nat.mod_eq_of_lt (by omega)]
    assumption
  · decide

theorem decodeTagsel_legal (ts : BitVec 8) :
    (decodeTagsel ts).1.toNat % 32 = 0 ∧ 1 ≤ (decodeTagsel ts).1.toNat / 32 ∧ (decodeTagsel ts).1.toNat / 32 ≤ 10 := by
  unfold decodeTagsel
  split
  · have small : 32 * ts.toNat < 2 ^ 9 := by omega
    rw [BitVec.toNat_ofNat, Nat.mod_eq_of_lt small]
    omega
  · decide

/-- R166: CONFIG leaves a legal pair whatever it is given. -/
theorem decoded_legal (ro ts : BitVec 8) : Params.legal ⟨(decodeRounds ro).1, (decodeTagsel ts).1⟩ :=
  .inr ⟨decodeRounds_bounds ro, decodeTagsel_legal ts⟩

/-- An effect leaves CFG legal. -/
theorem effectOf_cfg_legal {i : Instr} {s t : State} (h : effectOf i s = .next t) (legal : s.cfg.legal) :
    t.cfg.legal := by
  cases i with
  | config ro ts => rw [effectOf_config_next h]; exact decoded_legal ro ts
  | encrypt => obtain ⟨_, _, _, -, rfl⟩ := onInputs_next h; exact legal
  | decrypt => obtain ⟨_, _, _, -, rfl⟩ := onInputs_next h; exact legal
  | _ => cases h; exact legal

/-- The output region is written inside the memory. -/
theorem writeWords_output_wf {s : State} {ws : List Word} (wf : s.mem.wf) (inRange : s.regionsInRange)
    (length : ws.length = s.outputRegion.len) : (s.mem.writeWords s.outAddr.toNat ws).wf := by
  refine writeWords_wf wf ?_
  by_cases empty : ws = []
  · exact .inl empty
  · refine .inr ?_
    rw [length]
    exact inRange s.outputRegion (by simp [State.regions]) (by rw [← length]; simpa using empty)

/-- An effect past its checks leaves the memory in its canonical form. -/
theorem effectOf_mem_wf {i : Instr} {s t : State} (passes : firstError (errorChecks i s) = none)
    (h : effectOf i s = .next t) (wf : s.mem.wf) : t.mem.wf := by
  obtain ⟨-, -, -, inRange⟩ := needs_of_passes passes
  cases i with
  | config ro ts => rw [effectOf_config_next h]; exact wf
  | encrypt =>
    obtain ⟨hd, p, tr, read, rfl⟩ := onInputs_next h
    obtain ⟨-, payload, -⟩ := (readInputs_ok_iff_holds s hd p tr).mp read
    exact writeWords_output_wf wf (inRange rfl) (by rw [encryptFn_length, payload.1, outputRegion_len])
  | decrypt =>
    obtain ⟨hd, c, tr, read, rfl⟩ := onInputs_next h
    obtain ⟨-, payload, -⟩ := (readInputs_ok_iff_holds s hd c tr).mp read
    cases verdict : decryptFn s.key s.nonce hd c tr (suppliedTag s) s.cfg with
    | mk p ok =>
      cases ok with
      | true =>
        rw [decryptEffect_pass verdict]
        exact writeWords_output_wf wf (inRange rfl) (by rw [length_of_decryptFn verdict, payload.1, outputRegion_len])
      | false => rw [decryptEffect_fail verdict]; exact wf
  | _ => cases h; exact wf

/-- What an open operation needs: the configuration, the key and the nonce of STATE_INIT (log 8). -/
abbrev State.OpenNeeds (s : State) : Prop :=
  s.opOpen = true → s.cfg.r ≠ 0#6 ∧ s.cfg.a ≠ 0#9 ∧ s.keyValid = 0b1111#4 ∧ s.nonceValid = 0b11#2

/-- Only STATE_INIT opens an operation, with its needs checked; CONFIG runs only while none is open, and ZEROIZE
closes it. -/
theorem effectOf_openNeeds {i : Instr} {s t : State} (passes : firstError (errorChecks i s) = none)
    (h : effectOf i s = .next t) (needs : s.OpenNeeds) : t.OpenNeeds := by
  obtain ⟨closed, keys, configured, -⟩ := needs_of_passes passes
  cases i with
  | config ro ts =>
    rw [effectOf_config_next h]
    intro opened
    cases (closed rfl).symm.trans opened
  | encrypt => obtain ⟨_, _, _, -, rfl⟩ := onInputs_next h; exact nofun
  | decrypt => obtain ⟨_, _, _, -, rfl⟩ := onInputs_next h; exact nofun
  | zeroize => cases h; exact nofun
  | finalTag => cases h; exact nofun
  | stateInit =>
    cases h
    obtain ⟨hr, ha⟩ := configured rfl
    exact fun _ => ⟨hr, ha, keys rfl⟩
  | _ => cases h; exact needs

/-! ## The engine's turn -/

/-- A command accepted in a state of the invariant completes in one. -/
theorem exec_finish_inv {i : Instr} {s t : State} (h : exec i s = .next t) (busy : s.busy = true) (inv : s.Inv) :
    t.finish.Inv := by
  obtain ⟨wf, legal, quiet, -, needs⟩ := inv
  obtain ⟨-, noErr, noResult⟩ := quiet busy
  rcases exec_next_checked h with ⟨e, rfl⟩ | ⟨passes, effect⟩
  · exact ⟨wf, legal, nofun, fun _ => noResult, needs⟩
  · have wf' : t.mem.wf := effectOf_mem_wf passes effect wf
    have legal' : t.cfg.legal := effectOf_cfg_legal effect legal
    have noErr' : t.err = .noError := (effectOf_err effect).trans noErr
    have needs' : t.OpenNeeds := effectOf_openNeeds passes effect needs
    exact ⟨wf', legal', nofun, fun err => absurd noErr' err, needs'⟩

theorem engineTurn_inv {s t : State} (h : engineTurn s = .next t) (inv : s.Inv) : t.Inv := by
  cases hb : s.busy with
  | false => rw [engineTurn_of_idle hb] at h; cases h; exact inv
  | true =>
    rw [engineTurn_of_busy hb] at h
    obtain ⟨u, hu, rfl⟩ := complete_next h
    rcases runWord_next hu with rfl | ⟨i, -, hi⟩
    · obtain ⟨wf, legal, quiet, -, needs⟩ := inv
      obtain ⟨-, -, noResult⟩ := quiet hb
      exact ⟨wf, legal, nofun, fun _ => noResult, needs⟩
    · exact exec_finish_inv hi hb inv

/-! ## The host's acts -/

/-- A valid bit more leaves all valid bits set. -/
theorem allValid_or {n : Nat} (v : BitVec n) : BitVec.allOnes n ||| v = BitVec.allOnes n := BitVec.allOnes_or

/-- A store in a register keeps the invariant: an acceptance makes STATUS quiet, and valid bits are only set. -/
theorem regStore_inv (r : Reg) (v : Word) {s : State} (idle : s.busy = false) (inv : s.Inv) : (regStore r v s).Inv := by
  obtain ⟨wf, legal, quiet, error, needs⟩ := inv
  cases r with
  | cmd => exact ⟨wf, legal, fun _ => ⟨rfl, rfl, rfl⟩, fun _ => rfl, needs⟩
  | status => exact ⟨wf, legal, fun busy => absurd busy (by simp [regStore, idle]), error, needs⟩
  | key i =>
    refine ⟨wf, legal, quiet, error, fun opened => ?_⟩
    obtain ⟨hr, ha, key, nonce⟩ := needs opened
    exact ⟨hr, ha, (congrArg (· ||| _) key).trans (allValid_or _), nonce⟩
  | nonce i =>
    refine ⟨wf, legal, quiet, error, fun opened => ?_⟩
    obtain ⟨hr, ha, key, nonce⟩ := needs opened
    exact ⟨hr, ha, key, (congrArg (· ||| _) nonce).trans (allValid_or _)⟩
  | _ => exact ⟨wf, legal, quiet, error, needs⟩

theorem hostReset_inv {s : State} (inv : s.Inv) : (hostReset s).Inv :=
  ⟨memAfterReset_wf inv.1, .inl ⟨rfl, rfl⟩, nofun, fun _ => rfl, nofun⟩

theorem hostAct_inv {op : HostOp} {s t : State} (h : hostAct op s = .next t) (inv : s.Inv) : t.Inv := by
  cases op with
  | regWrite off size v =>
    obtain ⟨-, rfl⟩ := hostRegWrite_next h
    cases hb : s.busy with
    | true =>
      rw [if_pos rfl]
      rcases busyWrite_cases off s with ⟨-, e⟩ | ⟨-, e⟩ <;> rw [e]
      · exact inv
      · exact inv
    | false =>
      rw [if_neg Bool.false_ne_true]
      rcases idleWrite_cases off v s with e | ⟨r, -, -, e⟩ <;> rw [e]
      · exact inv
      · exact regStore_inv r v hb inv
  | regRead off size =>
    obtain ⟨-, rfl⟩ := hostRegRead_next h
    split
    · obtain ⟨⟨v, n, e⟩, -⟩ := busyRead_cases off s
      rw [e]
      exact inv
    · exact inv
  | memWrite addr v =>
    obtain ⟨exists_, -, rfl⟩ := hostMemWrite_next h
    obtain ⟨wf, rest⟩ := inv
    exact ⟨put_wf v wf exists_, rest⟩
  | memRead addr =>
    obtain ⟨-, -, v, -, rfl⟩ := hostMemRead_next h
    exact inv
  | reset => cases h; exact hostReset_inv inv
  | wait => exact engineTurn_inv h inv

/-- Settles O59: by whose turn it is. -/
theorem everyStepKeepsTheInvariant : Obligations.EveryStepKeepsTheInvariant := by
  unfold Obligations.EveryStepKeepsTheInvariant
  intro s t inv h
  cases hops : s.hostOps with
  | nil => exact engineTurn_inv ((step_of_nil hops).symm.trans h) inv
  | cons op rest => exact hostAct_inv ((step_of_cons hops).symm.trans h) inv

/-- Settles O60: every clause but the memory's is about fields that are 0 at reset. -/
theorem resetSatisfiesTheInvariant : Obligations.ResetSatisfiesTheInvariant := by
  unfold Obligations.ResetSatisfiesTheInvariant
  exact ⟨reset_mem_wf, .inl ⟨rfl, rfl⟩, nofun, fun _ => rfl, nofun⟩

end Sys2Proof.Machine
end

section
/-! PROOFS. The steps of the two agents (spec/10_state.md R27, spec/20_memory.md R74-R75, spec/70_reset_and_hazards.md R310-R313):
the engine's turn, the host's accesses to data memory, and the reset input. -/

namespace Sys2Proof.Machine

/-! ## The engine's turn -/

theorem runWord_of_decode {w : Word} {i : Instr} (h : decode w = .ok i) (s : State) : runWord w s = exec i s := by
  simp only [runWord, h]

/-- A step at the engine's turn is the completion of the pending command (R27). -/
theorem step_of_engineMoves_busy {s : State} {rest : List HostOp} (moves : s.EngineMoves rest) (busy : s.busy = true) :
    step s = complete { s with hostOps := rest } :=
  (step_of_engineMoves moves).trans (engineTurn_of_busy busy)

/-- Settles O54: the completion runs the decoded command, whatever its outcome. -/
theorem stepRunsTheDecodedCommand : Obligations.StepRunsTheDecodedCommand := by
  unfold Obligations.StepRunsTheDecodedCommand
  intro s rest i moves busy names
  rw [step_of_engineMoves_busy moves busy, complete, runWord_of_decode names]
  cases exec i { s with hostOps := rest } <;> rfl

/-- Every command has a next state, but for a whole operation that meets an unwritten word (R90). -/
theorem exec_outcome (i : Instr) (s : State) :
    (∃ t, exec i s = .next t) ∨
      ∃ b, exec i s = .fault (.unwrittenWord b) ∧ s.mem.get b = none ∧ i.wholeOp = true := by
  cases checks : firstError (errorChecks i s) with
  | some e => exact .inl ⟨_, exec_of_error checks⟩
  | none =>
    have faults {k : List Word → List Word → List Word → State} (whole : i.wholeOp = true)
        (effect : effectOf i s = onInputs s k) :
        (∃ t, effectOf i s = .next t) ∨
          ∃ b, effectOf i s = .fault (.unwrittenWord b) ∧ s.mem.get b = none ∧ i.wholeOp = true := by
      rw [effect]
      rcases onInputs_cases s k with ⟨h, p, t, -, next⟩ | ⟨b, read, fault⟩
      · exact .inl ⟨_, next⟩
      · exact .inr ⟨b, fault, (readInputs_error read).1, whole⟩
    rw [exec_of_passes checks]
    cases i with
    | encrypt => exact faults rfl rfl
    | decrypt => exact faults rfl rfl
    | _ => exact .inl ⟨_, rfl⟩

theorem wholeOp_iff (i : Instr) : i.wholeOp = true ↔ i = .encrypt ∨ i = .decrypt := by simp [Instr.wholeOp]

/-- The whole operations are the words 2 and 3 (R117). -/
theorem word_of_wholeOp {w : Word} {i : Instr} (names : decode w = .ok i) (whole : i.wholeOp = true) :
    w = 0x00000002 ∨ w = 0x00000003 := by
  have word := encodeOfDecode w i names
  rcases (wholeOp_iff i).mp whole with rfl | rfl
  · exact .inl word.symm
  · exact .inr word.symm

/-- Settles O55: a word that is no command completes at once, a command by its outcome. -/
theorem engineAlwaysCompletes : Obligations.EngineAlwaysCompletes := by
  unfold Obligations.EngineAlwaysCompletes
  refine fun s rest moves => ⟨fun idle => ?_, fun busy => ?_⟩
  · exact (step_of_engineMoves moves).trans (engineTurn_of_idle idle)
  · cases names : decode s.pending with
    | error e => exact .inl ⟨_, step_of_decode_error moves busy names, rfl, rfl, rfl⟩
    | ok i =>
      have step_eq := stepRunsTheDecodedCommand s rest i moves busy names
      rcases exec_outcome i { s with hostOps := rest } with ⟨t, next⟩ | ⟨b, fault, unwritten, whole⟩
      · obtain ⟨-, -, ⟨-, -, hostOps, -⟩, -⟩ := commandsKeepHostRegisters i _ t next
        rw [next] at step_eq
        exact .inl ⟨_, step_eq, rfl, rfl, hostOps⟩
      · rw [fault] at step_eq
        exact .inr ⟨b, step_eq, unwritten, word_of_wholeOp names whole⟩

/-! ## Data memory from the host's side -/

/-- A whole operation is in flight exactly while its word is pending and BUSY = 1 (R117). -/
theorem wholeInFlight_iff (s : State) : s.wholeInFlight = true ↔ s.WholeBusy := by
  refine ⟨fun h => ?_, wholeInFlight_of_wholeBusy⟩
  obtain ⟨busy, names⟩ := (Bool.and_eq_true _ _).mp h
  refine ⟨busy, ?_⟩
  split at names
  · exact word_of_wholeOp ‹decode s.pending = .ok .encrypt› rfl
  · exact word_of_wholeOp ‹decode s.pending = .ok .decrypt› rfl
  · cases names

theorem hostMemWrite_of_allowed {s : State} {addr : Word} (v : Word) (below : addr.toNat < s.mem.words)
    (allowed : writeForbidden s addr.toNat = false) :
    hostMemWrite addr v s = .next { s with mem := s.mem.put addr.toNat v } := by
  rw [hostMemWrite, if_neg (by omega), if_neg (by simp [allowed])]

theorem hostMemWrite_of_noSuchWord {s : State} {addr : Word} (v : Word) (above : s.mem.words ≤ addr.toNat) :
    hostMemWrite addr v s = .fault (.noSuchWord addr.toNat) := if_pos above

theorem hostMemRead_of_noSuchWord {s : State} {addr : Word} (above : s.mem.words ≤ addr.toNat) :
    hostMemRead addr s = .fault (.noSuchWord addr.toNat) := if_pos above

theorem hostMemRead_of_written {s : State} {addr w : Word} (below : addr.toNat < s.mem.words)
    (allowed : readForbidden s addr.toNat = false) (written : s.mem.get addr.toNat = some w) :
    hostMemRead addr s = .next { s with rdata := w } := by
  rw [hostMemRead, if_neg (by omega), if_neg (by simp [allowed])]
  simp only [written]

theorem hostMemRead_of_unwritten {s : State} {addr : Word} (below : addr.toNat < s.mem.words)
    (allowed : readForbidden s addr.toNat = false) (unwritten : s.mem.get addr.toNat = none) :
    hostMemRead addr s = .fault (.unwrittenWord addr.toNat) := by
  rw [hostMemRead, if_neg (by omega), if_neg (by simp [allowed])]
  simp only [unwritten]

/-- Settles O50: a word is above the memory, or kept by R321, or accessible. -/
theorem hostMemoryAccess : Obligations.HostMemoryAccess := by
  unfold Obligations.HostMemoryAccess
  refine fun s a v rest => ⟨fun hops => ⟨fun below free => ?_, fun above => ?_⟩,
    fun hops => ⟨fun below free => ?_, fun above => ?_⟩⟩
  · have allowed : writeForbidden { s with hostOps := rest } a.toNat = false := by
      rw [← Bool.not_eq_true, writeForbidden_iff, wholeInFlight_iff]
      exact free
    exact ⟨_, (step_of_cons hops).trans (hostMemWrite_of_allowed v below allowed), put_top _ _ _, get_put_same _ _ _,
      fun b other => get_put_other _ v other⟩
  · exact (step_of_cons hops).trans (hostMemWrite_of_noSuchWord v above)
  · have allowed : readForbidden { s with hostOps := rest } a.toNat = false := by
      rw [← Bool.not_eq_true, readForbidden_iff, wholeInFlight_iff]
      exact free
    exact ⟨fun w written => (step_of_cons hops).trans (hostMemRead_of_written below allowed written),
      fun unwritten => (step_of_cons hops).trans (hostMemRead_of_unwritten below allowed unwritten)⟩
  · exact (step_of_cons hops).trans (hostMemRead_of_noSuchWord above)

/-! ## Reset -/

/-- Settles O53: the abandoned operation's output region is forgotten, and nothing else. -/
theorem resetInput : Obligations.ResetInput := by
  unfold Obligations.ResetInput
  intro s rest hops
  refine ⟨memAfterReset s, step_of_cons hops, ?_, fun whole a => ?_, fun notWhole => ?_⟩
  · rcases memAfterReset_cases s with ⟨-, e⟩ | ⟨-, e⟩ <;> rw [e]
    exact forget_top _ _
  · rw [memAfterReset, if_pos ((wholeInFlight_iff s).mpr whole), get_forget]
  · rw [memAfterReset, if_neg (mt (wholeInFlight_iff s).mp notWhole)]

/-- Every register but ID reads 0 at reset. -/
theorem regValue_reset {r : Reg} (h : r ≠ .id) : regValue r State.reset = 0 := by
  cases r with
  | id => exact absurd rfl h
  | nonce i => fin_cases i <;> rfl
  | status => decide
  | ctrl => decide
  | cfg => decide
  | keystat => decide
  | tagOut i => simp [regValue, State.reset]
  | tagIn i => simp [regValue, State.reset]
  | blk i => simp [regValue, State.reset]
  | s i => simp [regValue, State.reset]
  | _ => rfl

/-- Settles O52: register by register. -/
theorem resetReadsZero : Obligations.ResetReadsZero := by
  unfold Obligations.ResetReadsZero
  refine ⟨fun r h => regValue_reset h, rfl, fun i hi => ?_, rfl, rfl, rfl⟩
  interval_cases i <;> rfl

end Sys2Proof.Machine
end

section
/-! PROOFS. The register window while BUSY = 0 (spec/10_state.md R21-R40, spec/20_memory.md R71-R79): the register map, what a
read sees, what a write stores, and what locked mode hides. -/

namespace Sys2Proof.Machine

/-! ## The register map (R21, R72) -/

theorem offset_of_regAt {off : Nat} {r : Reg} (h : regAt off = some r) : off = r.offset := by
  have here : decide (r.offset = off) = true := List.find?_some (p := fun q : Reg => decide (q.offset = off)) h
  exact (of_decide_eq_true here).symm

/-- Settles O41: the table is a list of registers, each found at its own offset. -/
theorem registerMapRoundTrip : Obligations.RegisterMapRoundTrip := by
  unfold Obligations.RegisterMapRoundTrip
  refine ⟨fun r => ⟨regAt_offset r, offset_mod_four r, offset_lt r⟩, fun off r h => offset_of_regAt h, by decide,
    ⟨fun _ => rfl, fun _ => rfl⟩, by decide, by decide, ⟨fun _ => rfl, fun _ => rfl, fun _ => rfl, fun _ => rfl⟩,
    fun v => ⟨busTransfer_eq v, fun e => busValue_busLanes e v⟩⟩

/-! ## Legal and illegal accesses (R74) -/

theorem legalAccess_eq_false {off : BitVec 12} {size : Nat} (h : size ≠ 4 ∨ off.toNat % 4 ≠ 0) :
    legalAccess off size = false := by
  rcases h with narrow | misaligned
  · simp [legalAccess, narrow]
  · simp [legalAccess, misaligned]

/-- Settles O47: the host's accesses check the form first. -/
theorem narrowOrMisalignedAccessIsRefused : Obligations.NarrowOrMisalignedAccessIsRefused := by
  unfold Obligations.NarrowOrMisalignedAccessIsRefused
  intro s off size v rest bad
  have illegal := legalAccess_eq_false bad
  refine ⟨fun hops => ?_, fun hops => ?_⟩
  · simp [step_of_cons hops, hostAct, hostRegRead, illegal]
  · simp [step_of_cons hops, hostAct, hostRegWrite, illegal]

/-! ## Reads -/

theorem idleRead_of_reserved {off : BitVec 12} (s : State) (h : regAt off.toNat = none) : idleRead off s = 0 := by
  simp only [idleRead, h]

/-- A read of a register: 0 for a debug window in locked mode, else what it holds (R40). -/
theorem idleRead_register {off : BitVec 12} {r : Reg} (s : State) (h : regAt off.toNat = some r) :
    idleRead off s = if r.isDebug && s.dbgLock then 0 else regValue r s := by
  simp only [idleRead, h]

/-- A read that sees what the register holds: it is no debug window, or the block is unlocked. -/
theorem idleRead_of_visible {off : BitVec 12} {r : Reg} {s : State} (h : regAt off.toNat = some r)
    (visible : r.isDebug = false ∨ s.dbgLock = false) : idleRead off s = regValue r s := by
  rw [idleRead_register s h, if_neg]
  rcases visible with e | e <;> simp [e]

/-- A locked debug window reads 0 (R40). -/
theorem idleRead_of_locked {off : BitVec 12} {r : Reg} {s : State} (h : regAt off.toNat = some r)
    (debug : r.isDebug = true) (locked : s.dbgLock = true) : idleRead off s = 0 := by
  rw [idleRead_register s h, if_pos (by simp [debug, locked])]

/-- No register but the debug windows shows the key, the operands, RES, BLK or S (R31, R40). -/
theorem regValue_of_secrets {r : Reg} {s : State} {K : Vector Word 4} {x y z : Word} {B : Block} {S : PState}
    (visible : r.isDebug = false) :
    regValue r { s with key := K, opa := x, opb := y, res := z, blk := B, st := S } = regValue r s := by
  cases r with
  | opa | opb | res | blk | s => cases visible
  | _ => rfl

/-- What a register holds is no matter of what the host saw and will do. -/
theorem idleRead_of_host (off : BitVec 12) (s : State) (w : Word) (ops : List HostOp) :
    idleRead off { s with rdata := w, hostOps := ops } = idleRead off s := by
  cases h : regAt off.toNat with
  | none => rw [idleRead_of_reserved _ h, idleRead_of_reserved _ h]
  | some r =>
    have same : regValue r { s with rdata := w, hostOps := ops } = regValue r s := by cases r <;> rfl
    rw [idleRead_register _ h, idleRead_register _ h, same]

/-- The value that a read sees while BUSY = 1, and the count of free values after it (R319). -/
theorem busyRead_eq (off : BitVec 12) (s : State) : ∃ v n, busyRead off s = { s with rdata := v, freeIdx := n } ∧
    (regAt off.toNat = none → v = 0 ∧ n = s.freeIdx) ∧
    (regAt off.toNat = some .status → v = statusWord s) ∧ (regAt off.toNat = some .id → v = idWord) := by
  unfold busyRead
  split <;> rename_i reg <;> rw [reg]
  · exact ⟨_, _, rfl, fun _ => ⟨rfl, rfl⟩, nofun, nofun⟩
  · exact ⟨_, _, rfl, nofun, fun _ => rfl, nofun⟩
  · exact ⟨_, _, rfl, nofun, nofun, fun _ => rfl⟩
  · rename_i notStatus notId
    exact ⟨_, _, rfl, nofun, fun e => absurd (Option.some.inj e) notStatus, fun e => absurd (Option.some.inj e) notId⟩

theorem hostRegRead_busy {s : State} {off : BitVec 12} (legal : legalAccess off 4 = true) (busy : s.busy = true) :
    hostRegRead off 4 s = .next (busyRead off s) := by
  rw [hostRegRead, if_pos legal, if_pos busy]

theorem hostRegRead_idle {s : State} {off : BitVec 12} (legal : legalAccess off 4 = true) (idle : s.busy = false) :
    hostRegRead off 4 s = .next { s with rdata := idleRead off s } := by
  rw [hostRegRead, if_pos legal, if_neg (by simp [idle])]

theorem step_regRead_busy {s : State} {off : BitVec 12} {rest : List HostOp} (aligned : off.toNat % 4 = 0)
    (hops : s.hostOps = .regRead off 4 :: rest) (busy : s.busy = true) :
    step s = .next (busyRead off { s with hostOps := rest }) :=
  (step_of_cons hops).trans (hostRegRead_busy (legalAccess_of_aligned aligned) busy)

theorem step_regRead_idle {s : State} {off : BitVec 12} {rest : List HostOp} (aligned : off.toNat % 4 = 0)
    (hops : s.hostOps = .regRead off 4 :: rest) (idle : s.busy = false) :
    step s = .next { s with rdata := idleRead off s, hostOps := rest } := by
  rw [← idleRead_of_host off s s.rdata rest]
  exact (step_of_cons hops).trans (hostRegRead_idle (legalAccess_of_aligned aligned) idle)

theorem regAt_id : regAt (0x000 : BitVec 12).toNat = some .id := by decide

/-- Settles O45: by whether the block is busy. -/
theorem hostReadsHaveNoSideEffects : Obligations.HostReadsHaveNoSideEffects := by
  unfold Obligations.HostReadsHaveNoSideEffects
  constructor
  · intro s off rest aligned hops
    rcases Bool.eq_false_or_eq_true s.busy with busy | idle
    · obtain ⟨v, n, read, reserved, status, id⟩ := busyRead_eq off { s with hostOps := rest }
      have notIdle : ¬ s.busy = false := by simp [busy]
      refine ⟨v, n, (step_regRead_busy aligned hops busy).trans (congrArg Host.Outcome.next read),
        fun idle => absurd idle notIdle, fun idle => absurd idle notIdle, reserved, ?_, ?_⟩
      · rintro rfl
        exact status regAt_status
      · rintro rfl
        exact id regAt_id
    · refine ⟨idleRead off s, s.freeIdx, step_regRead_idle aligned hops idle,
        fun _ => ⟨rfl, rfl, fun w ops => idleRead_of_host off s w ops⟩, fun _ r here visible => ?_,
        fun reserved => ⟨idleRead_of_reserved s reserved, rfl⟩, ?_, ?_⟩
      · subst here
        exact idleRead_of_visible (regAt_ofNat_offset r) visible
      · rintro rfl
        exact idleRead_of_regAt s regAt_status rfl
      · rintro rfl
        exact idleRead_of_regAt s regAt_id rfl
  · exact fun s => ⟨⟨rfl, rfl, rfl, rfl, rfl, rfl, rfl, fun _ => rfl, fun _ => rfl⟩, ⟨rfl, rfl, rfl, rfl, rfl, rfl, rfl⟩,
      rfl, rfl, rfl, fun _ => rfl, fun _ => rfl, fun _ => rfl, fun _ => rfl⟩

/-! ## Writes -/

/-- A legal host write at a register's offset, while BUSY = 0 (R40). -/
theorem hostRegWrite_register (r : Reg) (v : Word) {s : State} (idle : s.busy = false) :
    hostRegWrite (BitVec.ofNat 12 r.offset) 4 v s =
      .next (if r.isDebug && s.dbgLock then s else regStore r v s) := by
  rw [hostRegWrite, if_pos (legalAccess_ofNat_offset r), idle, if_neg Bool.false_ne_true]
  simp only [idleWrite, regAt_ofNat_offset]

/-- A write that reaches the register: it is no debug window, or the block is unlocked. -/
theorem hostRegWrite_of_visible {r : Reg} (v : Word) {s : State} (idle : s.busy = false)
    (visible : r.isDebug = false ∨ s.dbgLock = false) :
    hostRegWrite (BitVec.ofNat 12 r.offset) 4 v s = .next (regStore r v s) := by
  rw [hostRegWrite_register r v idle, if_neg]
  rcases visible with e | e <;> simp [e]

/-- Settles O46: a locked debug window is cut off, and no other register shows these values. -/
theorem lockedModeHidesSecrets : Obligations.LockedModeHidesSecrets := by
  unfold Obligations.LockedModeHidesSecrets
  refine fun s locked => ⟨fun r v idle debug => ⟨?_, ?_⟩, fun K x y z B S off => ?_⟩
  · rw [hostRegRead_idle (legalAccess_ofNat_offset r) idle, idleRead_of_locked (regAt_ofNat_offset r) debug locked]
  · rw [hostRegWrite_register r v idle, debug, locked]
    rfl
  · cases h : regAt off.toNat with
    | none => rw [idleRead_of_reserved _ h, idleRead_of_reserved _ h]
    | some r =>
      cases debug : r.isDebug with
      | true =>
        refine (idleRead_of_locked h debug ?_).trans (idleRead_of_locked h debug locked).symm
        exact locked
      | false => rw [idleRead_of_regAt _ h debug, idleRead_of_regAt _ h debug, regValue_of_secrets debug]

/-- What each register holds after a store in a plain one: the word in that one, the old value in every other (R79);
KEYSTAT is the only other that a store, of NONCE, changes. -/
theorem regValue_regStore {r q : Reg} (plain : r.isPlain = true) (v : Word) (s : State) (hq : q ≠ .keystat) :
    regValue q (regStore r v s) = if q = r then v else regValue q s := by
  cases r with
  | nonce i =>
    cases q with
    | nonce j => simp [regValue, regStore, Vector.getElem_set, Fin.ext_iff, eq_comm]
    | keystat => exact absurd rfl hq
    | _ => rfl
  | tagIn i =>
    cases q with
    | tagIn j => simp [regValue, regStore, Vector.getElem_set, Fin.ext_iff, eq_comm]
    | _ => rfl
  | blk i =>
    cases q with
    | blk j => simp [regValue, regStore, Vector.getElem_set, Fin.ext_iff, eq_comm]
    | _ => rfl
  | s i =>
    cases q with
    | s j => simp [regValue, regStore, Vector.getElem_set, Fin.ext_iff, eq_comm]
    | _ => rfl
  | hdrAddr | hdrLen | pldAddr | pldLen | trlAddr | trlLen | outAddr | opa | opb => cases q <;> rfl
  | id | ctrl | status | cmd | cfg | keystat | outLen | key | res | tagOut => cases plain

/-- What a store in a plain register keeps besides the registers that can be read. -/
theorem regStore_keeps {r : Reg} (plain : r.isPlain = true) (v : Word) (s : State) :
    ((regStore r v s).key = s.key ∧ (regStore r v s).mem = s.mem ∧ (regStore r v s).pending = s.pending) ∧
      ((regStore r v s).rdata = s.rdata ∧ (regStore r v s).freeIdx = s.freeIdx ∧
        (regStore r v s).hostOps = s.hostOps) := by
  cases r with
  | id | ctrl | status | cmd | cfg | keystat | outLen | key | res | tagOut => cases plain
  | _ => exact ⟨⟨rfl, rfl, rfl⟩, rfl, rfl, rfl⟩

theorem keystat_regStore {r : Reg} (plain : r.isPlain = true) (v : Word) (s : State) (notNonce : ∀ i, r ≠ .nonce i) :
    regValue .keystat (regStore r v s) = regValue .keystat s := by
  cases r with
  | id | ctrl | status | cmd | cfg | keystat | outLen | key | res | tagOut => cases plain
  | nonce i => exact absurd rfl (notNonce i)
  | _ => rfl

theorem regStore_of_readOnly {r : Reg} (readOnly : r.isReadOnly = true) (v : Word) (s : State) :
    regStore r v s = s := by
  cases r with
  | id | cfg | keystat | outLen | res | tagOut => rfl
  | _ => cases readOnly

theorem hostRegWrite_of_reserved {off : BitVec 12} (v : Word) {s : State} (idle : s.busy = false)
    (aligned : off.toNat % 4 = 0) (reserved : regAt off.toNat = none) : hostRegWrite off 4 v s = .next s := by
  rw [hostRegWrite, if_pos (legalAccess_of_aligned aligned), idle, if_neg Bool.false_ne_true]
  simp only [idleWrite, reserved]

/-- Settles O48: a plain register's store, a read-only register's and a reserved offset's. -/
theorem registerWritesReadBack : Obligations.RegisterWritesReadBack := by
  unfold Obligations.RegisterWritesReadBack
  refine fun s v idle => ⟨fun r plain visible => ?_, fun r readOnly => ?_,
    fun off aligned reserved => hostRegWrite_of_reserved v idle aligned reserved⟩
  · obtain ⟨hidden, host⟩ := regStore_keeps plain v s
    have notKeystat : r ≠ .keystat := by rintro rfl; cases plain
    refine ⟨_, hostRegWrite_of_visible v idle visible, ?_, fun q other hq => ?_, keystat_regStore plain v s, hidden, host⟩
    · rw [regValue_regStore plain v s notKeystat, if_pos rfl]
    · rw [regValue_regStore plain v s hq, if_neg other]
  · rw [hostRegWrite_register r v idle, regStore_of_readOnly readOnly, ite_self]

/-- A valid bit is set beside those that are set already (R29). -/
theorem getLsbD_or_twoPow {n : Nat} (valid : BitVec n) (i j : Nat) (hj : j < n) :
    (valid ||| BitVec.twoPow n i).getLsbD j = (valid.getLsbD j || decide (j = i)) := by
  rw [BitVec.getLsbD_or, BitVec.getLsbD_twoPow]
  by_cases same : j = i
  · subst same
    simp [hj]
  · simp [same, Ne.symm same]

/-- Settles O49: the store of KEYi and of NONCEi. -/
theorem keyWritesSetTheirValidBit : Obligations.KeyWritesSetTheirValidBit := by
  unfold Obligations.KeyWritesSetTheirValidBit
  refine fun s v idle => ⟨fun i => ⟨_, fun j hj => getLsbD_or_twoPow s.keyValid i j hj, ?_⟩,
    fun i => ⟨_, fun j hj => getLsbD_or_twoPow s.nonceValid i j hj, ?_⟩⟩
  · exact hostRegWrite_of_visible (r := .key i) v idle (.inl rfl)
  · exact hostRegWrite_of_visible (r := .nonce i) v idle (.inl rfl)

end Sys2Proof.Machine
end
